-- ==== Sys2Proof/Word.lean ====
section
/-! DEFINITION. The bit-vector types of the engine (spec/00_scope.md R14: fixed widths, bit 0 least significant, all
values unsigned). -/

namespace Sys2Proof

/-- One signal line (RS, RW, EN, BL). -/
abbrev Line := BitVec 1

/-- Half of an instruction byte, the data field of a transport byte. -/
abbrev Nibble := BitVec 4

/-- A transport byte, an instruction byte, a command operand. -/
abbrev Byte := BitVec 8

/-- A device address on the two-wire bus (R61). -/
abbrev BusAddr := BitVec 7

/-- A DDRAM address (R64). -/
abbrev DdramAddr := BitVec 7

/-- A duration in time units, at most 65535 (R34, decision D25). -/
abbrev Units := BitVec 16

/-- The payload field `g` of a command word: eight bytes (R102). -/
abbrev Payload := BitVec 64

/-- A command word as it stands on the command port (R102). -/
abbrev CmdWord := BitVec 88

end Sys2Proof
end

