-- ==== Sys2Proof/Syntax.lean ====
section
/-! DEFINITION. The 20 commands (spec/30_encoding.md R104, spec/opcode_table.json), one constructor a row, and the
pseudo-instruction PRINT (R112). Operands are 8-bit unsigned as they stand in the word (R105); the payload is the field
`g` itself (R102, R103). -/

namespace Sys2Proof

/-- A command of LCD_I2C-CMD (R104). -/
inductive Instr where
  | init
  | clear
  | home
  | leftToRight
  | rightToLeft
  | autoscrollOn
  | autoscrollOff
  | displayOn
  | displayOff
  | cursorOn
  | cursorOff
  | blinkOn
  | blinkOff
  | scrollLeft
  | scrollRight
  /-- `a` = slot, `g` = the eight glyph bytes (format AG). -/
  | defineGlyph (a : Byte) (g : Payload)
  /-- `a` = column, `b` = row (format AB). -/
  | setCursor (a b : Byte)
  /-- `a` = the byte (format A). -/
  | writeChar (a : Byte)
  | backlightOn
  | backlightOff
  deriving DecidableEq, Repr

/-- The operand patterns of R103. -/
inductive Format where
  | n | a | ab | ag
  deriving DecidableEq, Repr

/-- The format of a command (R103, R104). -/
def Instr.format : Instr → Format
  | .init | .clear | .home => .n
  | .leftToRight | .rightToLeft | .autoscrollOn | .autoscrollOff => .n
  | .displayOn | .displayOff | .cursorOn | .cursorOff | .blinkOn | .blinkOff => .n
  | .scrollLeft | .scrollRight => .n
  | .defineGlyph _ _ => .ag
  | .setCursor _ _ => .ab
  | .writeChar _ => .a
  | .backlightOn | .backlightOff => .n

/-- The commands that transmit at least one controller instruction: all but the two backlight commands (R215, R216). -/
def Instr.sendsInstruction : Instr → Bool
  | .init | .clear | .home => true
  | .leftToRight | .rightToLeft | .autoscrollOn | .autoscrollOff => true
  | .displayOn | .displayOff | .cursorOn | .cursorOff | .blinkOn | .blinkOff => true
  | .scrollLeft | .scrollRight => true
  | .defineGlyph _ _ | .setCursor _ _ | .writeChar _ => true
  | .backlightOn | .backlightOff => false

/-- `PRINT "text"` (R112): one `WRITE_CHAR` per byte of the text, in order; the empty text expands to nothing. -/
def expandPrint (text : List Byte) : List Instr :=
  text.map Instr.writeChar

end Sys2Proof
end

