-- ==== Sys2Proof/Decode.lean ====
section
/-! DEFINITION. The command word (spec/30_encoding.md R102 to R106) and the encoder (R109). The decoder reads `op` and
nothing else to identify a command; it is total and rejects by name. -/

namespace Sys2Proof

/-- Why a command word has no meaning. -/
inductive DecodeError where
  /-- A reserved command opcode, 0x00 or 0x15 to 0xFF (R106, U8). -/
  | reserved (op : Byte)
  deriving DecidableEq, Repr

/-- `op = cmd_word[87:80]` (R102). -/
def opField (w : CmdWord) : Byte := w.extractLsb' 80 8

/-- `a = cmd_word[79:72]` (R102). -/
def aField (w : CmdWord) : Byte := w.extractLsb' 72 8

/-- `b = cmd_word[71:64]` (R102). -/
def bField (w : CmdWord) : Byte := w.extractLsb' 64 8

/-- `g = cmd_word[63:0]` (R102). -/
def gField (w : CmdWord) : Payload := w.extractLsb' 0 64

/-- The command a word stands for (R104), or the reserved opcode it holds (R106). Fields a format does not use are not
read (R103). -/
def decode (w : CmdWord) : Except DecodeError Instr :=
  match (opField w).toNat with
  | 0x01 => .ok .init
  | 0x02 => .ok .clear
  | 0x03 => .ok .home
  | 0x04 => .ok .leftToRight
  | 0x05 => .ok .rightToLeft
  | 0x06 => .ok .autoscrollOn
  | 0x07 => .ok .autoscrollOff
  | 0x08 => .ok .displayOn
  | 0x09 => .ok .displayOff
  | 0x0A => .ok .cursorOn
  | 0x0B => .ok .cursorOff
  | 0x0C => .ok .blinkOn
  | 0x0D => .ok .blinkOff
  | 0x0E => .ok .scrollLeft
  | 0x0F => .ok .scrollRight
  | 0x10 => .ok (.defineGlyph (aField w) (gField w))
  | 0x11 => .ok (.setCursor (aField w) (bField w))
  | 0x12 => .ok (.writeChar (aField w))
  | 0x13 => .ok .backlightOn
  | 0x14 => .ok .backlightOff
  | _    => .error (.reserved (opField w))

/-- The command word with the given fields, most significant first (R102, R109). -/
def packWord (op a b : Byte) (g : Payload) : CmdWord := op ++ a ++ b ++ g

/-- The word the assembler makes of a command: every field the format does not use is 0 (R109). -/
def encode : Instr → CmdWord
  | .init            => packWord 0x01 0 0 0
  | .clear           => packWord 0x02 0 0 0
  | .home            => packWord 0x03 0 0 0
  | .leftToRight     => packWord 0x04 0 0 0
  | .rightToLeft     => packWord 0x05 0 0 0
  | .autoscrollOn    => packWord 0x06 0 0 0
  | .autoscrollOff   => packWord 0x07 0 0 0
  | .displayOn       => packWord 0x08 0 0 0
  | .displayOff      => packWord 0x09 0 0 0
  | .cursorOn        => packWord 0x0A 0 0 0
  | .cursorOff       => packWord 0x0B 0 0 0
  | .blinkOn         => packWord 0x0C 0 0 0
  | .blinkOff        => packWord 0x0D 0 0 0
  | .scrollLeft      => packWord 0x0E 0 0 0
  | .scrollRight     => packWord 0x0F 0 0 0
  | .defineGlyph a g => packWord 0x10 a 0 g
  | .setCursor a b   => packWord 0x11 a b 0
  | .writeChar a     => packWord 0x12 a 0 0
  | .backlightOn     => packWord 0x13 0 0 0
  | .backlightOff    => packWord 0x14 0 0 0

/-- The word with every field that its command's format ignores set to 0 (R103, R109): what `encode` gives back. -/
def clearIgnored (f : Format) (w : CmdWord) : CmdWord :=
  match f with
  | .n  => packWord (opField w) 0 0 0
  | .a  => packWord (opField w) (aField w) 0 0
  | .ab => packWord (opField w) (aField w) (bField w) 0
  | .ag => packWord (opField w) (aField w) 0 (gField w)

/-- The command the decoder reads from an instruction whose bits are `w`, numbered as spec/opcode_table.json numbers them
(one 88-bit word, bit 0 the least significant). Bits above `nbits` are 0. A word of more than 88 bits is no command word.
Log entry 19. -/
def decodeTableWord (nbits w : Nat) : Option Instr :=
  if nbits ≤ 88 then (decode (BitVec.ofNat 88 (w % 2 ^ nbits))).toOption else none

end Sys2Proof
end

