-- ==== Sys2Proof/Config.lean ====
section
/-! DEFINITION. What is fixed at construction (spec/00_scope.md section 3) and the open values that have no value in the
model. -/

namespace Sys2Proof

/-- The parameters presented at construction (R4 to R11, R29, R30). Every duration is 16 bits (R34, decision D25). -/
structure Cfg where
  /-- ADDR (R4). -/
  addr    : BusAddr
  /-- COLS_CFG (R5). -/
  colsCfg : Byte
  /-- ROWS_CFG (R5). -/
  rowsCfg : Byte
  /-- T_EN (R6). -/
  tEn     : Units
  /-- T_GAP (R11). -/
  tGap    : Units
  /-- T_SETTLE (R7). -/
  tSettle : Units
  /-- T_LONG (R8). -/
  tLong   : Units
  /-- T_WRITE (R10). -/
  tWrite  : Units
  /-- T_INIT1 (R9). -/
  tInit1  : Units
  /-- T_INIT2 (R9). -/
  tInit2  : Units
  /-- T_INIT3 (R9). -/
  tInit3  : Units
  deriving DecidableEq, Repr

/-- The values the spec's test vectors use (R4 to R11: "Default"). DESIGN CHOICE, unsafe: the spec leaves every one of them
open; log entry 4. -/
def Cfg.default : Cfg where
  addr    := 0x27
  colsCfg := 16
  rowsCfg := 2
  tEn     := 1
  tGap    := 0
  tSettle := 37
  tLong   := 1600
  tWrite  := 37
  tInit1  := 4200
  tInit2  := 150
  tInit3  := 37

/-- U10 (R251): whether a `TX` that was requested and not completed when reset arrives reaches the bus. A free value: no
body, applied to a counter of State. DESIGN CHOICE, safe; log entry 5. -/
opaque Config.txLandsAtReset : Nat → Bool

/-- T_POWERON (R13): open, no default. Used only by the host's boot discipline (R262). Log entry 13. -/
opaque Config.tPowerOn : Nat

/-- CYCLES_PER_UNIT (R12): open, no default, used by no rule. Log entry 13. -/
opaque Config.cyclesPerUnit : Nat

end Sys2Proof
end

