-- ==== Sys2Proof/Machine/State.lean ====
section
/-! DEFINITION. The state of the engine (spec/10_state.md R20), the state outside it that it stores to (R44), what the host
does next (R224), and the reasons a step can stop. Plain data throughout. -/

namespace Sys2Proof.Machine

/-- An entry of the output trace OUT (spec/00_scope.md R16 to R18). -/
inductive Event where
  /-- `Tx(a, v)`: one bus transaction that writes the byte `v` to the device at `a`. -/
  | tx (a : BusAddr) (v : Byte)
  /-- `Wait(n)`: at least `n` time units pass. -/
  | wait (n : Units)
  deriving DecidableEq, Repr

/-- What a micro-step does (R36): its operand is already computed. -/
inductive Act where
  | tx (v : Byte)
  | wait (n : Units)
  deriving DecidableEq, Repr

/-- The latches that the procedures of spec/41_transmission.md write as they go (R21, R22, R23, R25). -/
structure Latches where
  rs   : Line
  rw   : Line
  en   : Line
  data : Byte
  deriving DecidableEq, Repr

/-- A micro-step of SEQ: what it does, and the latch values the pseudocode has written by the time it starts (R36, R130).
DEDUCED, safe; log entry 9. -/
structure Micro where
  lat : Latches
  act : Act
  deriving DecidableEq, Repr

/-- What the host does at the engine's inputs (R224). DESIGN CHOICE, safe; log entry 2. -/
inductive Input where
  /-- Hold this word on the command port until the engine accepts it (R85). -/
  | command (w : CmdWord)
  /-- Assert reset (R40, R250). -/
  | reset
  /-- Nothing on the command port and no reset, for one step. -/
  | pass
  deriving DecidableEq, Repr

/-- Bytes held at addresses of the two-wire bus (R61, R62), in one canonical form: addresses strictly rising. An address
that is not listed holds no known value (R44, U9). -/
abbrev Memory := List Host.Cell

/-- The reasons the machine could stop with a fault: none. The engine raises no exception and has no state in which it
stops because of an input (spec/60_exceptions.md R220, R227). -/
inductive Fault where
  deriving DecidableEq, Repr

/-- The reasons a command is given no meaning. -/
inductive Refusal where
  /-- Raised by an arm of `exec` for an instruction that has no meaning yet; safe. No arm raises it. -/
  | notModelled (mnemonic : String)
  /-- Raised by the step on a command word with a reserved opcode, 0x00 or 0x15 to 0xFF; safe. The spec asks a model to
  refuse it (R106, U8). -/
  | reservedOpcode (op : Byte)
  deriving DecidableEq, Repr

/-- The machine: the tuple of R20, the configuration, and what stands around the engine. -/
structure State where
  /-- The configuration, fixed at construction (R29, R30). -/
  cfg    : Cfg
  /-- RS, RW, EN and DATA (R21, R22, R23, R25). -/
  lat    : Latches
  /-- BL (R24). -/
  bl     : Line
  /-- ENTRY: bit 1 DIR, bit 0 AUTO (R26). -/
  entry  : BitVec 2
  /-- DISP: bit 2 DON, bit 1 CUR, bit 0 BLK (R27). -/
  disp   : BitVec 3
  /-- SEQ: the micro-steps still to be performed; empty is idle (R36). -/
  seq    : List Micro
  /-- TMR, the delay controller's down-counter (R34). -/
  tmr    : Units
  /-- OUT since the last reset, oldest first (R18, R41). -/
  out    : List Event
  /-- Outside the engine: the byte held at each bus address, the expander's output latch among them (R44). -/
  bus    : Memory
  /-- The model's own: what the host does next, in order. -/
  inputs : List Input
  /-- The model's own: the events produced before the last reset (R251). -/
  past   : List Event
  /-- The model's own: how many free values have been used (U10). -/
  draws  : Nat
  deriving DecidableEq, Repr

/-- The latches after reset (R41). -/
def Latches.reset : Latches where
  rs   := 0
  rw   := 0
  en   := 0
  data := 0x00

/-- The machine right after reset (R41). The configuration is the one of log entry 4, nothing has been written to the bus,
and the host does nothing. -/
def State.reset : State where
  cfg    := Cfg.default
  lat    := Latches.reset
  bl     := 0
  entry  := 0b00
  disp   := 0b000
  seq    := []
  tmr    := 0
  out    := []
  bus    := []
  inputs := []
  past   := []
  draws  := 0

/-- SEQ is idle (R36). -/
def State.idle (s : State) : Bool := s.seq.isEmpty

end Sys2Proof.Machine
end

