-- ==== Sys2Proof/Machine/Ops.lean ====
section
/-! DEFINITION. The shared operations: the signal encoder (spec/40_frame_encoder.md), the nibble sequencer and the delay
controller (spec/41_transmission.md), the bytes held on the bus (R44, R62), the performance of one micro-step (R37), the
acceptance of a command (R36, R226) and reset (R250, R251). The engine takes no exception (R220, R227), so there is no
entry or return operation. -/

namespace Sys2Proof.Machine

/-! ### Nibbles and frames -/

/-- `b[7:4]`. -/
def hiNibble (b : Byte) : Nibble := b.extractLsb' 4 4

/-- `b[3:0]`. -/
def loNibble (b : Byte) : Nibble := b.extractLsb' 0 4

/-- `Frame(nib)` (R120): RS at bit 0, RW at bit 1, EN at bit 2, BL at bit 3, the nibble at bits 7:4 (R90). -/
def frame (l : Latches) (bl : Line) (nib : Nibble) : Byte :=
  l.rs.setWidth 8 ||| (l.rw.setWidth 8 <<< 1) ||| (l.en.setWidth 8 <<< 2) ||| (bl.setWidth 8 <<< 3) |||
    (nib.setWidth 8 <<< 4)

/-- `FrameHigh(b)` (R121). -/
def frameHigh (l : Latches) (bl : Line) (b : Byte) : Byte := frame l bl (hiNibble b)

/-- `FrameLow(b)` (R122). -/
def frameLow (l : Latches) (bl : Line) (b : Byte) : Byte := frame l bl (loNibble b)

/-- `BacklightByte` (R123): only the backlight bit, whatever the latches hold. -/
def backlightByte (bl : Line) : Byte := bl.setWidth 8 <<< 3

/-! ### Building the micro-step list of an operation -/

/-- An operation being worked out at the moment its command is accepted (R36): the registers it reads and writes, the
latch values so far, and the micro-steps so far. -/
structure Build where
  cfg   : Cfg
  bl    : Line
  entry : BitVec 2
  disp  : BitVec 3
  lat   : Latches
  steps : List Micro
  deriving DecidableEq, Repr

/-- `RS <- v`. -/
def Build.setRs (v : Line) (p : Build) : Build := { p with lat := { p.lat with rs := v } }

/-- `RW <- v`. -/
def Build.setRw (v : Line) (p : Build) : Build := { p with lat := { p.lat with rw := v } }

/-- `EN <- v`. -/
def Build.setEn (v : Line) (p : Build) : Build := { p with lat := { p.lat with en := v } }

/-- `DATA <- b`. -/
def Build.setData (b : Byte) (p : Build) : Build := { p with lat := { p.lat with data := b } }

/-- `BL <- v`. -/
def Build.setBl (v : Line) (p : Build) : Build := { p with bl := v }

/-- `TX(v)` (R16). -/
def Build.tx (v : Byte) (p : Build) : Build := { p with steps := p.steps ++ [⟨p.lat, .tx v⟩] }

/-- `WAIT(n)` (R17): a wait of 0 is no micro-step (decision D30, R38). -/
def Build.wait (n : Units) (p : Build) : Build :=
  if n = 0 then p else { p with steps := p.steps ++ [⟨p.lat, .wait n⟩] }

/-- `TX(Frame(nib))`. -/
def Build.txFrame (nib : Nibble) (p : Build) : Build := p.tx (frame p.lat p.bl nib)

/-- `PulseNibble(nib)` (R130). -/
def Build.pulseNibble (nib : Nibble) (p : Build) : Build :=
  ((((p.setEn 1).txFrame nib).wait p.cfg.tEn).setEn 0).txFrame nib

/-- `SendInstr(b)` (R131). -/
def Build.sendInstr (b : Byte) (p : Build) : Build :=
  (((p.setData b).pulseNibble (hiNibble b)).wait p.cfg.tGap).pulseNibble (loNibble b)

/-- `SendHalf(b)` (R132): the high nibble only. -/
def Build.sendHalf (b : Byte) (p : Build) : Build := (p.setData b).pulseNibble (hiNibble b)

/-- `Command(b, t)` (R134). -/
def Build.command (b : Byte) (t : Units) (p : Build) : Build :=
  (((p.setRs 0).setRw 0).sendInstr b).wait t

/-- `Data(b)` (R135). -/
def Build.data (b : Byte) (p : Build) : Build :=
  (((p.setRs 1).setRw 0).sendInstr b).wait p.cfg.tWrite

/-! ### The bytes held on the bus -/

/-- The canonical form: addresses strictly rising, each a 7-bit bus address (R61). -/
abbrev Memory.wf (m : Memory) : Prop :=
  m.Pairwise (fun x y => x.1 < y.1) ∧ ∀ c ∈ m, c.1 < 128

/-- The byte held at a bus address; none where nothing has been written (R44, U9). The engine never reads it (R60). -/
def Memory.read : Memory → Nat → Option Byte
  | [], _ => none
  | (b, v) :: m, a => if a = b then some v else Memory.read m a

/-- The store of one byte to the one location at a bus address (R62, R66). -/
def Memory.write : Memory → Nat → Byte → Memory
  | [], a, v => [(a, v)]
  | (b, u) :: m, a, v =>
    if a < b then (a, v) :: (b, u) :: m
    else if a = b then (a, v) :: m
    else (b, u) :: Memory.write m a v

/-! ### Performing a micro-step -/

/-- The event a micro-step leaves in OUT (R16, R17). -/
def Act.event (addr : BusAddr) : Act → Event
  | .tx v   => .tx addr v
  | .wait n => .wait n

/-- What a micro-step does to the bytes held on the bus: a `TX` is `MemWrite(ADDR, 1, v)` (R66). -/
def Act.store (addr : BusAddr) (m : Memory) : Act → Memory
  | .tx v   => m.write addr.toNat v
  | .wait _ => m

/-- What TMR holds when the micro-step starts: `WAIT(n)` loads it with `n` (R34). -/
def Act.load : Act → Units
  | .tx _   => 0
  | .wait n => n

/-- Start the micro-step at the head of SEQ: the latch writes before it are made (R130 to R135) and a wait loads TMR (R34).
When SEQ is empty nothing starts and TMR is 0. Log entries 9 and 10. -/
def State.start (s : State) : State :=
  match s.seq with
  | []     => { s with tmr := 0 }
  | m :: _ => { s with lat := m.lat, tmr := m.act.load }

/-- Perform the micro-step at the head of SEQ (R37): its event is appended to OUT, a `TX` reaches the expander, and the
next micro-step starts. Idle, nothing happens (R241). -/
def State.perform (s : State) : State :=
  match s.seq with
  | []        => s
  | m :: rest =>
    State.start { s with
      seq := rest, out := s.out ++ [m.act.event s.cfg.addr], bus := m.act.store s.cfg.addr s.bus }

/-- `n` micro-steps. -/
def State.performs : Nat → State → State
  | 0,     s => s
  | n + 1, s => State.performs n s.perform

/-- The rest of the running operation, to the end: the state in which the engine is idle again (R37). -/
def State.finish (s : State) : State := s.performs s.seq.length

/-! ### Accepting a command -/

/-- What an operation starts from. -/
def State.toBuild (s : State) : Build where
  cfg   := s.cfg
  bl    := s.bl
  entry := s.entry
  disp  := s.disp
  lat   := s.lat
  steps := []

/-- An idle engine takes an operation: SEQ is loaded with its whole micro-step list, and BL, ENTRY and DISP are written at
the same moment (R36). -/
def State.load (s : State) (p : Build) : State :=
  State.start { s with bl := p.bl, entry := p.entry, disp := p.disp, seq := p.steps }

/-- A command of the given operation is presented. While SEQ is not idle it is not accepted and nothing changes (R226). -/
def accept (op : Build → Build) (s : State) : Host.Outcome State Fault Refusal :=
  if s.idle then .next (s.load (op s.toBuild)) else .next s

/-! ### Reset -/

/-- The `Tx` that was requested and not completed when reset arrives: the last event of OUT, or absent (R251, U10). A `TX` at
the head of SEQ counts as requested even when `rst` came in the first cycle in which it would have been driven, so that
`tx_valid` was never high for it (R250): R251 says "requested", D21 "pending". DESIGN CHOICE, safe; log entry 5. -/
def State.landed (s : State) : List Act :=
  match s.seq with
  | ⟨_, .tx v⟩ :: _ => if Config.txLandsAtReset s.draws then [.tx v] else []
  | _               => []

/-- Reset (R41, R250, R251): the engine's registers take their reset values, the running operation is abandoned, the
configuration stays, what has been sent stays sent (R251) and the expander keeps what it holds (R217). -/
def State.takeReset (s : State) : State :=
  { State.reset with
    cfg    := s.cfg
    bus    := s.landed.foldl (fun m a => a.store s.cfg.addr m) s.bus
    inputs := s.inputs
    past   := s.past ++ s.out ++ s.landed.map (Act.event s.cfg.addr)
    draws  := s.draws + 1 }

end Sys2Proof.Machine
end

