-- ==== Sys2Proof/Machine/Backlight.lean ====
section
/-! DEFINITION. The backlight commands (spec/48_backlight.md R215, R216). -/

namespace Sys2Proof.Machine

/-- `BACKLIGHT_ON` (R215): `BL <- 1`, then one transport byte, not through `Frame`. -/
def opBacklightOn (p : Build) : Build :=
  let q := p.setBl 1
  q.tx (backlightByte q.bl)

/-- `BACKLIGHT_OFF` (R216): `BL <- 0`, then one transport byte. -/
def opBacklightOff (p : Build) : Build :=
  let q := p.setBl 0
  q.tx (backlightByte q.bl)

/-- The meaning of `BACKLIGHT_ON`. -/
def execBacklightOn (s : State) : Host.Outcome State Fault Refusal := accept opBacklightOn s

/-- The meaning of `BACKLIGHT_OFF`. -/
def execBacklightOff (s : State) : Host.Outcome State Fault Refusal := accept opBacklightOff s

end Sys2Proof.Machine
end

