-- ==== Sys2Proof/Machine/Operands.lean ====
section
/-! DEFINITION. The operand forms: the effective geometry (spec/00_scope.md R5, spec/10_state.md R30, R31), the cursor
address (spec/47_glyph_cursor_char.md R203), the glyph slot and bytes (R103, R200). All arithmetic of the engine is the
list of R205. -/

namespace Sys2Proof.Machine

/-- `min(x, m)` on 8-bit unsigned values (R205 (a)). -/
def minByte (x m : Byte) : Byte := if x ≤ m then x else m

/-- `max(x, m)` on 8-bit unsigned values (R5). -/
def maxByte (x m : Byte) : Byte := if x ≤ m then m else x

/-- `COLS = max(1, COLS_CFG)` (R5). -/
def cols (c : Cfg) : Byte := maxByte 1 c.colsCfg

/-- `ROWS = min(4, max(1, ROWS_CFG))`, 3 bits (R5, R30). -/
def rows (c : Cfg) : BitVec 3 := (minByte 4 (maxByte 1 c.rowsCfg)).setWidth 3

/-- `COLMAX = COLS - 1` (R30). -/
def colMax (c : Cfg) : Byte := cols c - 1

/-- `ROWMAX = ROWS - 1`, 2 bits (R30). -/
def rowMax (c : Cfg) : BitVec 2 := (rows c - 1).setWidth 2

/-- The constant table ROWOFF (R31). -/
def rowOff (r : BitVec 2) : Byte :=
  match r.toNat with
  | 0 => 0x00
  | 1 => 0x40
  | 2 => 0x14
  | _ => 0x54

/-- The column the engine uses: `min(col, COLMAX)` (R203). -/
def clampCol (c : Cfg) (col : Byte) : Byte := minByte col (colMax c)

/-- The row the engine uses: `min(row, ROWMAX)`, 0 to 3 (R203). -/
def clampRow (c : Cfg) (row : Byte) : BitVec 2 := (minByte row ((rowMax c).setWidth 8)).setWidth 2

/-- `CursorAddr(col, row)` (R203): the 9-bit sum of row offset and column, modulo 128. -/
def cursorAddr (c : Cfg) (col row : Byte) : DdramAddr :=
  ((rowOff (clampRow c row)).setWidth 9 + (clampCol c col).setWidth 9).setWidth 7

/-- `SET_DDRAM_ADDR = 0x80 | address` (R99). -/
def setDdramInstr (a : DdramAddr) : Byte := 0x80 ||| a.setWidth 8

/-- `a mod 8` (R200): the slot wraps, it is not rejected. -/
def slotOf (a : Byte) : BitVec 3 := a.extractLsb' 0 3

/-- `SET_CGRAM_ADDR = 0x40 | (slot << 3)` (R98). -/
def setCgramInstr (slot : BitVec 3) : Byte := 0x40 ||| (slot.setWidth 8 <<< 3)

/-- `d_k = g[8k+7 : 8k]` (R103). -/
def glyphByte (g : Payload) (k : Nat) : Byte := g.extractLsb' (8 * k) 8

/-- The eight glyph bytes in the order they are sent, `d0` first (R69, R103). -/
def glyphBytes (g : Payload) : List Byte :=
  [glyphByte g 0, glyphByte g 1, glyphByte g 2, glyphByte g 3,
   glyphByte g 4, glyphByte g 5, glyphByte g 6, glyphByte g 7]

end Sys2Proof.Machine
end

