-- ==== Sys2Proof/Machine/GlyphCursorChar.lean ====
section
/-! DEFINITION. DEFINE_GLYPH, SET_CURSOR and WRITE_CHAR (spec/47_glyph_cursor_char.md R200 to R203). -/

namespace Sys2Proof.Machine

/-- `SET_CURSOR a, b` (R201). -/
def opSetCursor (a b : Byte) (p : Build) : Build :=
  p.command (setDdramInstr (cursorAddr p.cfg a b)) p.cfg.tSettle

/-- `WRITE_CHAR a` (R202). -/
def opWriteChar (a : Byte) (p : Build) : Build := p.data a

/-- `DEFINE_GLYPH a, d0, ..., d7` (R200): the slot's CGRAM address, the eight bytes as character writes, and the operation
`SET_CURSOR 0, 0`. -/
def opDefineGlyph (a : Byte) (g : Payload) (p : Build) : Build :=
  let q := p.command (setCgramInstr (slotOf a)) p.cfg.tSettle
  opSetCursor 0 0 ((glyphBytes g).foldl (fun r d => opWriteChar d r) q)

/-- The meaning of `SET_CURSOR`. -/
def execSetCursor (a b : Byte) (s : State) : Host.Outcome State Fault Refusal := accept (opSetCursor a b) s

/-- The meaning of `WRITE_CHAR`. -/
def execWriteChar (a : Byte) (s : State) : Host.Outcome State Fault Refusal := accept (opWriteChar a) s

/-- The meaning of `DEFINE_GLYPH`. -/
def execDefineGlyph (a : Byte) (g : Payload) (s : State) : Host.Outcome State Fault Refusal :=
  accept (opDefineGlyph a g) s

end Sys2Proof.Machine
end

