-- ==== Sys2Proof/Machine/ClearHome.lean ====
section
/-! DEFINITION. CLEAR and HOME (spec/43_clear_home.md R160, R161). -/

namespace Sys2Proof.Machine

/-- `CLEAR` (R160): `Command(0x01, T_LONG)`. -/
def opClear (p : Build) : Build := p.command 0x01 p.cfg.tLong

/-- `HOME` (R161): `Command(0x02, T_LONG)`. -/
def opHome (p : Build) : Build := p.command 0x02 p.cfg.tLong

/-- The meaning of `CLEAR`. -/
def execClear (s : State) : Host.Outcome State Fault Refusal := accept opClear s

/-- The meaning of `HOME`. -/
def execHome (s : State) : Host.Outcome State Fault Refusal := accept opHome s

end Sys2Proof.Machine
end

