-- ==== Sys2Proof/Machine/Flags.lean ====
section
/-! DEFINITION. The two cumulative flag registers: how a command changes them and how they enter their instruction byte
(spec/44_entry_mode.md R174, spec/45_display_control.md R186). -/

namespace Sys2Proof.Machine

/-- `(r | setmask) & ~clearmask` at the register's width (R174, R186, R205 (e)). -/
def updateFlags {w : Nat} (setMask clearMask r : BitVec w) : BitVec w := (r ||| setMask) &&& ~~~clearMask

/-- `ENTRY_MODE_SET = 0x04 | ENTRY` (R94). -/
def entryInstr (entry : BitVec 2) : Byte := 0x04 ||| entry.setWidth 8

/-- `DISPLAY_CONTROL = 0x08 | DISP` (R95). -/
def dispInstr (disp : BitVec 3) : Byte := 0x08 ||| disp.setWidth 8

/-- `ENTRY <- v`. -/
def Build.setEntry (v : BitVec 2) (p : Build) : Build := { p with entry := v }

/-- `DISP <- v`. -/
def Build.setDisp (v : BitVec 3) (p : Build) : Build := { p with disp := v }

/-- `EntryUpdate(setmask, clearmask)` (R174): the register first, then the instruction with its new value. -/
def Build.entryUpdate (setMask clearMask : BitVec 2) (p : Build) : Build :=
  let q := p.setEntry (updateFlags setMask clearMask p.entry)
  q.command (entryInstr q.entry) q.cfg.tSettle

/-- `DispUpdate(setmask, clearmask)` (R186). -/
def Build.dispUpdate (setMask clearMask : BitVec 3) (p : Build) : Build :=
  let q := p.setDisp (updateFlags setMask clearMask p.disp)
  q.command (dispInstr q.disp) q.cfg.tSettle

end Sys2Proof.Machine
end

