-- ==== Sys2Proof/Machine/DisplayControl.lean ====
section
/-! DEFINITION. The display-control commands (spec/45_display_control.md R180 to R185). -/

namespace Sys2Proof.Machine

/-- `DISPLAY_ON` (R180): sets DON. -/
def opDisplayOn (p : Build) : Build := p.dispUpdate 0b100 0b000

/-- `DISPLAY_OFF` (R181): clears DON. -/
def opDisplayOff (p : Build) : Build := p.dispUpdate 0b000 0b100

/-- `CURSOR_ON` (R182): sets CUR. -/
def opCursorOn (p : Build) : Build := p.dispUpdate 0b010 0b000

/-- `CURSOR_OFF` (R183): clears CUR. -/
def opCursorOff (p : Build) : Build := p.dispUpdate 0b000 0b010

/-- `BLINK_ON` (R184): sets BLK. -/
def opBlinkOn (p : Build) : Build := p.dispUpdate 0b001 0b000

/-- `BLINK_OFF` (R185): clears BLK. -/
def opBlinkOff (p : Build) : Build := p.dispUpdate 0b000 0b001

/-- The meaning of `DISPLAY_ON`. -/
def execDisplayOn (s : State) : Host.Outcome State Fault Refusal := accept opDisplayOn s

/-- The meaning of `DISPLAY_OFF`. -/
def execDisplayOff (s : State) : Host.Outcome State Fault Refusal := accept opDisplayOff s

/-- The meaning of `CURSOR_ON`. -/
def execCursorOn (s : State) : Host.Outcome State Fault Refusal := accept opCursorOn s

/-- The meaning of `CURSOR_OFF`. -/
def execCursorOff (s : State) : Host.Outcome State Fault Refusal := accept opCursorOff s

/-- The meaning of `BLINK_ON`. -/
def execBlinkOn (s : State) : Host.Outcome State Fault Refusal := accept opBlinkOn s

/-- The meaning of `BLINK_OFF`. -/
def execBlinkOff (s : State) : Host.Outcome State Fault Refusal := accept opBlinkOff s

end Sys2Proof.Machine
end

