-- ==== Sys2Proof/Machine/EntryMode.lean ====
section
/-! DEFINITION. The entry-mode commands (spec/44_entry_mode.md R170 to R173). -/

namespace Sys2Proof.Machine

/-- `LEFT_TO_RIGHT` (R170): sets DIR. -/
def opLeftToRight (p : Build) : Build := p.entryUpdate 0b10 0b00

/-- `RIGHT_TO_LEFT` (R171): clears DIR. -/
def opRightToLeft (p : Build) : Build := p.entryUpdate 0b00 0b10

/-- `AUTOSCROLL_ON` (R172): sets AUTO. -/
def opAutoscrollOn (p : Build) : Build := p.entryUpdate 0b01 0b00

/-- `AUTOSCROLL_OFF` (R173): clears AUTO. -/
def opAutoscrollOff (p : Build) : Build := p.entryUpdate 0b00 0b01

/-- The meaning of `LEFT_TO_RIGHT`. -/
def execLeftToRight (s : State) : Host.Outcome State Fault Refusal := accept opLeftToRight s

/-- The meaning of `RIGHT_TO_LEFT`. -/
def execRightToLeft (s : State) : Host.Outcome State Fault Refusal := accept opRightToLeft s

/-- The meaning of `AUTOSCROLL_ON`. -/
def execAutoscrollOn (s : State) : Host.Outcome State Fault Refusal := accept opAutoscrollOn s

/-- The meaning of `AUTOSCROLL_OFF`. -/
def execAutoscrollOff (s : State) : Host.Outcome State Fault Refusal := accept opAutoscrollOff s

end Sys2Proof.Machine
end

