-- ==== Sys2Proof/Machine/Init.lean ====
section
/-! DEFINITION. INIT (spec/42_init.md R150). -/

namespace Sys2Proof.Machine

/-- Steps 1 to 4 of `INIT` (R150): command mode, three primes, the 4-bit function set as a high nibble, the full function
set. -/
def opHandshake (p : Build) : Build :=
  let p := (p.setRs 0).setRw 0
  let p := (p.sendHalf 0x30).wait p.cfg.tInit1
  let p := (p.sendHalf 0x30).wait p.cfg.tInit2
  let p := (p.sendHalf 0x30).wait p.cfg.tInit3
  let p := (p.sendHalf 0x20).wait p.cfg.tSettle
  (p.sendInstr 0x28).wait p.cfg.tSettle

/-- `INIT` (R150): the handshake, then the operations `DISPLAY_ON`, `CLEAR` and `LEFT_TO_RIGHT`. -/
def opInit (p : Build) : Build := opLeftToRight (opClear (opDisplayOn (opHandshake p)))

/-- The meaning of `INIT`. -/
def execInit (s : State) : Host.Outcome State Fault Refusal := accept opInit s

end Sys2Proof.Machine
end

