-- ==== Sys2Proof/Machine/Shift.lean ====
section
/-! DEFINITION. The display shift commands (spec/46_shift.md R190, R191). -/

namespace Sys2Proof.Machine

/-- `SCROLL_LEFT` (R190): `Command(0x18, T_SETTLE)`. -/
def opScrollLeft (p : Build) : Build := p.command 0x18 p.cfg.tSettle

/-- `SCROLL_RIGHT` (R191): `Command(0x1C, T_SETTLE)`. -/
def opScrollRight (p : Build) : Build := p.command 0x1C p.cfg.tSettle

/-- The meaning of `SCROLL_LEFT`. -/
def execScrollLeft (s : State) : Host.Outcome State Fault Refusal := accept opScrollLeft s

/-- The meaning of `SCROLL_RIGHT`. -/
def execScrollRight (s : State) : Host.Outcome State Fault Refusal := accept opScrollRight s

end Sys2Proof.Machine
end

