-- ==== Sys2Proof/Machine/Step.lean ====
section
/-! DEFINITION. One step of the machine at the event level (spec/10_state.md R36, R37; spec/60_exceptions.md R224 to R226).
There is no program counter and no fetch (R33): what the host does next stands in `inputs`. -/

namespace Sys2Proof.Machine

/-- One step. Reset wins over everything (R225). A command word is sampled only by an idle engine (R85, R226), and is then
decoded and performed, or refused when its opcode is reserved (R106). Otherwise the engine performs one micro-step (R37),
or stays idle (R241). -/
def step (s : State) : Host.Outcome State Fault Refusal :=
  match s.inputs with
  | []                => .next s.perform
  | .pass :: rest     => .next (State.perform { s with inputs := rest })
  | .reset :: rest    => .next (State.takeReset { s with inputs := rest })
  | .command w :: rest =>
    if s.idle then
      match decode w with
      | .ok i                 => exec i { s with inputs := rest }
      | .error (.reserved op) => .refused (.reservedOpcode op)
    else .next s.perform

/-- `s` with an idle engine and the given command word on the command port, so that the very next step accepts and runs
it. Log entry 3. -/
def State.withFetchWord (s : State) (nbits w : Nat) : State :=
  { s with seq := [], tmr := 0, inputs := .command (BitVec.ofNat 88 (w % 2 ^ nbits)) :: s.inputs }

end Sys2Proof.Machine
end

