-- ==== Sys2Proof/Machine/Text.lean ====
section
/-! DEFINITION. The textual form of commands (spec/30_encoding.md R108 to R110, R112): one command a line, the mnemonic or
the document's name for it, operands separated by commas, `;` before a comment. Spaces separate; log entry 21. -/

namespace Sys2Proof.Machine

/-- Why a line is not a command. -/
inductive TextError where
  /-- A name that is neither a mnemonic nor a second name of R104. -/
  | unknownName (name : List Char)
  /-- An operand that is not a number of 8 bits or a character, or the wrong number of them. -/
  | badOperands
  deriving DecidableEq, Repr

/-- A piece of a line. -/
inductive Token where
  | word (cs : List Char)
  | comma
  | char (c : Char)
  | text (cs : List Char)
  deriving DecidableEq, Repr

/-- The word read so far, if any. -/
def flushWord (acc : List Char) : List Token :=
  if acc.isEmpty then [] else [.word acc.reverse]

/-- Split a line. The first argument is the text literal being read, if any; the second the word being read. A text literal
with no closing quote ends with its line. DESIGN CHOICE; log entry 21. -/
def lexLine : Option (List Char) → List Char → List Char → List Token
  | some lit, _,   '"' :: cs              => .text lit.reverse :: lexLine none [] cs
  | some lit, _,   c :: cs                => lexLine (some (c :: lit)) [] cs
  | some lit, _,   []                     => [.text lit.reverse]
  | none,     acc, []                     => flushWord acc
  | none,     acc, ';' :: _               => flushWord acc
  | none,     acc, '\'' :: c :: '\'' :: cs => flushWord acc ++ .char c :: lexLine none [] cs
  | none,     acc, '"' :: cs              => flushWord acc ++ lexLine (some []) [] cs
  | none,     acc, ',' :: cs              => flushWord acc ++ .comma :: lexLine none [] cs
  | none,     acc, ' ' :: cs              => flushWord acc ++ lexLine none [] cs
  | none,     acc, '\t' :: cs             => flushWord acc ++ lexLine none [] cs
  | none,     acc, c :: cs                => lexLine none (c :: acc) cs

/-- The value of a digit, in any base up to 16. -/
def digitValue (c : Char) : Nat :=
  if '0' ≤ c ∧ c ≤ '9' then c.toNat - 48
  else if 'a' ≤ c ∧ c ≤ 'f' then c.toNat - 87
  else if 'A' ≤ c ∧ c ≤ 'F' then c.toNat - 55
  else 99

/-- The value of digits in a base. -/
def numberValue (base : Nat) : Nat → List Char → Option Nat
  | acc, []      => some acc
  | acc, c :: cs => if digitValue c < base then numberValue base (acc * base + digitValue c) cs else none

/-- Decimal, `0x` hexadecimal or `0b` binary (R108). -/
def parseNumber : List Char → Option Nat
  | '0' :: 'x' :: c :: cs => numberValue 16 0 (c :: cs)
  | '0' :: 'b' :: c :: cs => numberValue 2 0 (c :: cs)
  | []                    => none
  | cs                    => numberValue 10 0 cs

/-- A number must fit 8 bits (R108). -/
def toByte (n : Nat) : Option Byte := if n < 256 then some (BitVec.ofNat 8 n) else none

/-- An operand: a number, or a character for its ASCII code (R108). A character outside ASCII stands for its code point when
that fits 8 bits, and is no operand otherwise. DESIGN CHOICE; log entry 21. -/
def operandOf : Token → Option Byte
  | .word cs => (parseNumber cs).bind toByte
  | .char c  => toByte c.toNat
  | .comma   => none
  | .text _  => none

/-- Operands separated by commas. -/
def operandsOf : List Token → Option (List Byte)
  | []                => some []
  | [t]               => (operandOf t).map (fun b => [b])
  | t :: .comma :: ts =>
    match operandOf t, ts, operandsOf ts with
    | some b, _ :: _, some bs => some (b :: bs)
    | _, _, _                 => none
  | _                 => none

/-- Opcode, mnemonic and second name of each command (R104). -/
def nameTable : List (Byte × String × String) :=
  [(0x01, "INIT", "init"),
   (0x02, "CLEAR", "clear"),
   (0x03, "HOME", "home"),
   (0x04, "LEFT_TO_RIGHT", "leftToRight"),
   (0x05, "RIGHT_TO_LEFT", "rightToLeft"),
   (0x06, "AUTOSCROLL_ON", "autoscroll"),
   (0x07, "AUTOSCROLL_OFF", "noAutoscroll"),
   (0x08, "DISPLAY_ON", "display"),
   (0x09, "DISPLAY_OFF", "noDisplay"),
   (0x0A, "CURSOR_ON", "cursor")] ++
  [(0x0B, "CURSOR_OFF", "noCursor"),
   (0x0C, "BLINK_ON", "blink"),
   (0x0D, "BLINK_OFF", "noBlink"),
   (0x0E, "SCROLL_LEFT", "scrollLeft"),
   (0x0F, "SCROLL_RIGHT", "scrollRight"),
   (0x10, "DEFINE_GLYPH", "defineGlyph"),
   (0x11, "SET_CURSOR", "setCursor"),
   (0x12, "WRITE_CHAR", "writeCharacter"),
   (0x13, "BACKLIGHT_ON", "backlightOn"),
   (0x14, "BACKLIGHT_OFF", "backlightOff")]

/-- The opcode a name stands for (R104, R110). -/
def opOfName (name : List Char) : Option Byte :=
  (nameTable.find? (fun e => e.2.1.toList == name || e.2.2.toList == name)).map (fun e => e.1)

/-- The payload of eight bytes, `d0` in the least significant (R103). -/
def packGlyph (d0 d1 d2 d3 d4 d5 d6 d7 : Byte) : Payload :=
  d7 ++ d6 ++ d5 ++ d4 ++ d3 ++ d2 ++ d1 ++ d0

/-- The command of an opcode with its operands, in the order R108 writes them. -/
def commandOf (op : Byte) (operands : List Byte) : Option Instr :=
  match op.toNat, operands with
  | 0x01, [] => some .init
  | 0x02, [] => some .clear
  | 0x03, [] => some .home
  | 0x04, [] => some .leftToRight
  | 0x05, [] => some .rightToLeft
  | 0x06, [] => some .autoscrollOn
  | 0x07, [] => some .autoscrollOff
  | 0x08, [] => some .displayOn
  | 0x09, [] => some .displayOff
  | 0x0A, [] => some .cursorOn
  | 0x0B, [] => some .cursorOff
  | 0x0C, [] => some .blinkOn
  | 0x0D, [] => some .blinkOff
  | 0x0E, [] => some .scrollLeft
  | 0x0F, [] => some .scrollRight
  | 0x10, [a, d0, d1, d2, d3, d4, d5, d6, d7] => some (.defineGlyph a (packGlyph d0 d1 d2 d3 d4 d5 d6 d7))
  | 0x11, [a, b] => some (.setCursor a b)
  | 0x12, [a] => some (.writeChar a)
  | 0x13, [] => some .backlightOn
  | 0x14, [] => some .backlightOff
  | _, _ => none

/-- The bytes of a text literal (R112): one per character, its ASCII code. A character outside ASCII is the byte of its code
point when that fits 8 bits, and the text is refused otherwise. DESIGN CHOICE; log entry 21. -/
def textBytes : List Char → Option (List Byte)
  | []      => some []
  | c :: cs =>
    match toByte c.toNat, textBytes cs with
    | some b, some bs => some (b :: bs)
    | _, _            => none

/-- The commands of one line (R108, R112); an empty line has none. -/
def parseLine (line : List Char) : Except TextError (List Instr) :=
  match lexLine none [] line with
  | []                => .ok []
  | .word name :: ts  =>
    if name = "PRINT".toList then
      match ts with
      | [.text cs] =>
        match textBytes cs with
        | some bs => .ok (expandPrint bs)
        | none    => .error .badOperands
      | _          => .error .badOperands
    else
      match opOfName name with
      | none    => .error (.unknownName name)
      | some op =>
        match (operandsOf ts).bind (commandOf op) with
        | some i => .ok [i]
        | none   => .error .badOperands
  | _                 => .error (.unknownName [])

/-- A program: its lines top to bottom (R108). -/
def parseProgram : List (List Char) → Except TextError (List Instr)
  | []      => .ok []
  | l :: ls =>
    match parseLine l, parseProgram ls with
    | .ok is, .ok js => .ok (is ++ js)
    | .error e, _    => .error e
    | _, .error e    => .error e

/-- The command words of a program (R109). -/
def assemble (lines : List (List Char)) : Except TextError (List CmdWord) :=
  match parseProgram lines with
  | .ok is   => .ok (is.map encode)
  | .error e => .error e

end Sys2Proof.Machine
end

