-- ==== Sys2Proof/Machine/Ports.lean ====
section
/-! DEFINITION. The port level (spec/20_memory.md R84 to R88, spec/60_exceptions.md R225, spec/70_reset_and_hazards.md R250):
one clock cycle as a function of the sampled inputs. The ports take the place of `inputs`, which a cycle leaves alone. -/

namespace Sys2Proof.Machine

/-- The input ports, sampled on the rising edge of `clk` (R84). -/
structure PortIn where
  rst      : Bool
  unitTick : Bool
  cmdValid : Bool
  cmdWord  : CmdWord
  txReady  : Bool
  deriving DecidableEq, Repr

/-- The output ports (R84). `txData` is none while no transaction is requested: the spec gives it no value then (log entry
16). -/
structure PortOut where
  cmdReady : Bool
  busy     : Bool
  txValid  : Bool
  txAddr   : BusAddr
  txData   : Option Byte
  deriving DecidableEq, Repr

/-- The byte of the `TX` micro-step at the head of SEQ, when there is one. -/
def State.txRequest (s : State) : Option Byte :=
  match s.seq with
  | ⟨_, .tx v⟩ :: _ => some v
  | _               => none

/-- What the engine drives (R84 to R86); `cmd_ready`, `busy` and `tx_valid` are low while `rst` is high (R250). -/
def portOut (p : PortIn) (s : State) : PortOut where
  cmdReady := s.idle && !p.rst
  busy     := !s.idle && !p.rst
  txValid  := s.txRequest.isSome && !p.rst
  txAddr   := s.cfg.addr
  txData   := if p.rst then none else s.txRequest

/-- A command transfer in an idle cycle (R85): the word is sampled in this cycle only (R80). -/
def acceptWord (w : CmdWord) (s : State) : Host.Outcome State Fault Refusal :=
  match decode w with
  | .ok i                 => exec i s
  | .error (.reserved op) => .refused (.reservedOpcode op)

/-- A running micro-step in one cycle. A `TX` completes when `tx_ready` is high (R86). A `WAIT(n)` counts `n + 1` unit
strobes: TMR, loaded with `n`, counts down to 0 and the next strobe ends the wait (R34, R87). -/
def State.advance (p : PortIn) (s : State) : State :=
  match s.seq with
  | []               => s
  | ⟨_, .tx _⟩ :: _   => if p.txReady then s.perform else s
  | ⟨_, .wait _⟩ :: _ =>
    if p.unitTick then (if s.tmr = 0 then s.perform else { s with tmr := s.tmr - 1 }) else s

/-- One clock cycle (R225): reset wins; else a running micro-step may complete; a command is accepted only if the engine was
idle at the start of the cycle. -/
def cycle (p : PortIn) (s : State) : Host.Outcome State Fault Refusal :=
  if p.rst then .next s.takeReset
  else if s.idle then (if p.cmdValid then acceptWord p.cmdWord s else .next s)
  else .next (s.advance p)

/-- Cycles in order, stopping at the first refusal. -/
def cycles : List PortIn → State → Host.Outcome State Fault Refusal
  | [],      s => .next s
  | p :: ps, s =>
    match cycle p s with
    | .next t    => cycles ps t
    | .fault r   => .fault r
    | .refused r => .refused r

end Sys2Proof.Machine
end

