-- ==== Sys2Proof/Machine/Program.lean ====
section
/-! DEFINITION. Issuing commands one after another (spec/20_memory.md R77 (c), spec/30_encoding.md R108): each is accepted by
the idle engine and runs to its end before the next. -/

namespace Sys2Proof.Machine

/-- Present one command and let its operation run to the end. A command presented to a busy engine waits (R226). -/
def State.issue (i : Instr) (s : State) : State :=
  match exec i s with
  | .next t    => t.finish
  | .fault _   => s
  | .refused _ => s

/-- A program: its commands, top to bottom (R108). -/
def State.issueAll : List Instr → State → State
  | [],      s => s
  | i :: is, s => State.issueAll is (s.issue i)

/-- The host holds the assembled words of a program on the command port, one after another (R85, R109). -/
def programInputs (is : List Instr) : List Input := is.map (fun i => Input.command (encode i))

end Sys2Proof.Machine
end

