-- ==== Sys2Proof/Machine/Observer.lean ====
section
/-! DEFINITION. What can be read off a trace by an observer outside the engine: the lines of the expander, the nibbles the
controller latches and their join into bytes (spec/20_memory.md R82, R83), the count and sum of waits
(spec/70_reset_and_hazards.md R280), and what the spec lets one know of the controller (spec/10_state.md R45 to R47), which is
nothing before an `INIT` has completed (spec/70_reset_and_hazards.md R272). No definition here is used by the step. -/

namespace Sys2Proof.Machine

/-! ### Counting -/

/-- The `Tx` events of a trace, in order. -/
def txEvents : List Event → List (BusAddr × Byte)
  | []              => []
  | .tx a v :: es   => (a, v) :: txEvents es
  | .wait _ :: es   => txEvents es

/-- The durations of the `Wait` events of a trace, in order. -/
def waitEvents : List Event → List Units
  | []            => []
  | .tx _ _ :: es => waitEvents es
  | .wait n :: es => n :: waitEvents es

/-- The sum of the waits of a trace (R280), without wrapping. -/
def waitSum (es : List Event) : Nat := ((waitEvents es).map BitVec.toNat).sum

/-- The events that the running operation has still to produce. -/
def State.pending (s : State) : List Event := s.seq.map (fun m => m.act.event s.cfg.addr)

/-- Everything ever put on the bus: the events before the last reset, then OUT. -/
def State.history (s : State) : List Event := s.past ++ s.out

/-! ### The transport byte (R90) -/

/-- Bit 0, register-select. -/
def rsBit (v : Byte) : Line := v.extractLsb' 0 1

/-- Bit 1, read/write. -/
def rwBit (v : Byte) : Line := v.extractLsb' 1 1

/-- Bit 2, enable. -/
def enBit (v : Byte) : Line := v.extractLsb' 2 1

/-- Bit 3, backlight. -/
def blBit (v : Byte) : Line := v.extractLsb' 3 1

/-- The eight lines the expander shows (R44, R236): none, that is any value, before its first byte (U9). -/
def State.expanderLines (s : State) : Option Byte := s.bus.read s.cfg.addr.toNat

/-! ### The controller view (R82) -/

/-- The pairs latched by a list of transport bytes, after the byte `prev`. -/
def latchedAfter (prev : Option (BusAddr × Byte)) : List (BusAddr × Byte) → List (Line × Nibble)
  | []          => []
  | (a, w) :: r =>
    (match prev with
      | some (b, v) => if b = a ∧ enBit v = 1 ∧ enBit w = 0 then [(rsBit w, hiNibble w)] else []
      | none        => []) ++ latchedAfter (some (a, w)) r

/-- `Latched(OUT)` (R82): one (register-select, nibble) pair for each byte with enable high whose next byte, at the same
address, has enable low. `Wait` events are ignored. -/
def latched (es : List Event) : List (Line × Nibble) := latchedAfter none (txEvents es)

/-- The 4-bit-mode join of consecutive nibbles: `(rs, (nib1 << 4) | nib2)` (R82). The rule writes one `rs`; for two nibbles
latched with different register-selects, which the engine never sends as a pair, U2 asserts no pairing, and the first one's
is taken here. DESIGN CHOICE; log entry 26. -/
def joinNibbles : List (Line × Nibble) → List (Line × Byte)
  | (r, h) :: (_, l) :: rest => (r, h ++ l) :: joinNibbles rest
  | _                        => []

/-! ### The controller's registers (R45 to R47, R237)

A field is none while the spec does not fix it: any value (U1, U2, N13). -/

/-- The controller's bus width (R45). -/
inductive BusMode where
  | eight | four
  deriving DecidableEq, Repr

/-- The space its address pointer is in (R46). -/
inductive Space where
  | ddram | cgram
  deriving DecidableEq, Repr

/-- What is known of the controller. -/
structure Controller where
  /-- The bus mode, none while unknown (R45, U2). -/
  mode   : Option BusMode
  /-- How many 8-bit function-set nibbles in a row have been latched while the mode is unknown. -/
  primes : Nat
  /-- In 4-bit mode, the high nibble latched and not yet paired (R70). -/
  high   : Option (Line × Nibble)
  /-- Its entry-mode flags (R47). -/
  entry  : Option (BitVec 2)
  /-- Its display-control flags (R47). -/
  disp   : Option (BitVec 3)
  /-- The space of its address pointer (R46). -/
  space  : Option Space
  /-- The address it points to (R46). -/
  addr   : Option DdramAddr
  deriving DecidableEq, Repr

/-- Nothing is known (U2, R42). -/
def Controller.unknown : Controller where
  mode   := none
  primes := 0
  high   := none
  entry  := none
  disp   := none
  space  := none
  addr   := none

/-- A whole byte reaches the controller in 4-bit mode. The class of an instruction is its highest set bit (R92). A data
write keeps the space of the pointer (R46); how far it advances is not in the source. Clear and home leave the pointer
in DDRAM (R202 (a)) at an address the source does not give, and whether clear changes the entry flags is open (N13). The
source is silent on the pointer after a shift byte (R190, N13): nothing is known of it, neither address nor space. That
the flags an instruction does not carry stay as they are, through home (R161) as through the others, and that the pointer
is the 7 bits sent even where the controller may not implement that address (U12, N12), are DESIGN CHOICES. An instruction
byte the engine never emits (R101) is read by its class too (DEDUCED from R92), but 0x00 has no set bit and so no class:
the source says nothing of what it does, and after it nothing is known (DESIGN CHOICE). Log entry 17. -/
def Controller.byte (c : Controller) (rs : Line) (b : Byte) : Controller :=
  if rs = 1 then { c with addr := none }
  else if b.getLsbD 7 then { c with space := some .ddram, addr := some (b.extractLsb' 0 7) }
  else if b.getLsbD 6 then { c with space := some .cgram, addr := some ((b.extractLsb' 0 6).setWidth 7) }
  else if b.getLsbD 5 then (if b.getLsbD 4 then { c with mode := some .eight } else c)
  else if b.getLsbD 4 then { c with space := none, addr := none }
  else if b.getLsbD 3 then { c with disp := some (b.extractLsb' 0 3) }
  else if b.getLsbD 2 then { c with entry := some (b.extractLsb' 0 2) }
  else if b.getLsbD 1 then { c with space := some .ddram, addr := none }
  else if b.getLsbD 0 then { c with space := some .ddram, addr := none, entry := none }
  else Controller.unknown

/-- One latched nibble. While the mode is unknown only three 8-bit function-set nibbles in a row settle it (R266); in 8-bit
mode a nibble is a whole instruction (R70), and the 4-bit function set switches to 4-bit mode (R45); in 4-bit mode
nibbles pair, high first (R70). Anything else in 8-bit mode is misinterpreted, and two nibbles with different
register-selects are no pair: nothing is known after either (U2). Log entries 17 and 26. -/
def Controller.nibble (c : Controller) (p : Line × Nibble) : Controller :=
  match c.mode with
  | none =>
    if p = (0, 3) then
      if c.primes < 2 then { Controller.unknown with primes := c.primes + 1 }
      else { Controller.unknown with mode := some .eight }
    else Controller.unknown
  | some .eight =>
    if p = (0, 3) then c
    else if p = (0, 2) then { c with mode := some .four, high := none }
    else Controller.unknown
  | some .four =>
    match c.high with
    | none        => { c with high := some p }
    | some (r, h) =>
      if p.1 = r then Controller.byte { c with high := none } r (h ++ p.2) else Controller.unknown

/-! ### Watching the controller (R266, R272, R278)

Nothing is known of the controller until an `INIT` has completed (R272, U2), nor when a delay it needs was not kept (U1,
R278), nor after a reset that interrupted an operation (R251). Log entry 27. -/

/-- The least delays the controller needs, in time units. The source does not give them (N11), so they are a parameter:
`powerOn` from power-up to the first enable pulse (R13, R262), `en` in a pulse, `gap` between the nibbles of a byte, and
the rest after what their names say (R141). -/
structure Needs where
  powerOn : Nat
  en      : Nat
  gap     : Nat
  init1   : Nat
  init2   : Nat
  init3   : Nat
  settle  : Nat
  long    : Nat
  write   : Nat
  deriving DecidableEq, Repr

/-- The configuration's durations are what the controller needs (R278). The power-on wait is the host's (R262). -/
abbrev Needs.metBy (need : Needs) (c : Cfg) : Prop :=
  need.en ≤ c.tEn.toNat ∧ need.gap ≤ c.tGap.toNat ∧ need.init1 ≤ c.tInit1.toNat ∧ need.init2 ≤ c.tInit2.toNat ∧
    need.init3 ≤ c.tInit3.toNat ∧ need.settle ≤ c.tSettle.toNat ∧ need.long ≤ c.tLong.toNat ∧
    need.write ≤ c.tWrite.toNat

/-- The delay needed after the nibble `p` (R141): after each of the three primes its own; after another single nibble the
settle time; between the nibbles of a byte the gap; after a whole byte `write` for data, `long` for clear and home,
`settle` for every other instruction. The bytes 0x00 and 0x03, which the engine never emits (R101), are given `long` too
(DESIGN CHOICE; log entry 17). -/
def Needs.after (need : Needs) (c : Controller) (p : Line × Nibble) : Nat :=
  match c.mode with
  | none        => if c.primes = 0 then need.init1 else if c.primes = 1 then need.init2 else need.init3
  | some .eight => need.settle
  | some .four  =>
    match c.high with
    | none        => need.gap
    | some (r, h) => if r = 1 then need.write else if h = 0 ∧ p.2 < 4 then need.long else need.settle

/-- How much of an `INIT` has been seen. -/
inductive Stage where
  /-- No `INIT` has completed, or what it established has been lost (U2). -/
  | unknown
  /-- An `INIT` is running and every delay has been kept so far. -/
  | starting
  /-- An `INIT` has completed and every delay has been kept since (R263). -/
  | ready
  deriving DecidableEq, Repr

/-- What someone who watches the engine and the bus sees. -/
inductive Sight where
  /-- The display is powered (R262). -/
  | powerUp
  /-- Time passes, in time units, that is no wait of the engine. -/
  | elapse (n : Nat)
  /-- The engine accepts a command (R36). -/
  | accepted (i : Instr)
  /-- An event of OUT. -/
  | event (e : Event)
  /-- A reset of the engine, and whether it interrupts an operation (R251). -/
  | reset (interrupts : Bool)
  deriving DecidableEq, Repr

/-- What the watcher has worked out. -/
structure Observer where
  stage    : Stage
  /-- The controller's registers, as the nibbles of the `INIT` and of what followed it leave them. -/
  ctrl     : Controller
  /-- The last byte on the expander's lines, if any. -/
  line     : Option (BusAddr × Byte)
  /-- The time since enable last rose or fell at the end of a pulse. -/
  waited   : Nat
  /-- The delay the last nibble needs before the next pulse. -/
  due      : Nat
  /-- What is left of the power-on wait. -/
  awaiting : Nat
  deriving DecidableEq, Repr

/-- What may be relied on: nothing until an `INIT` has completed (R272). -/
def Observer.known (o : Observer) : Controller := if o.stage = .ready then o.ctrl else Controller.unknown

/-- What was known is lost (U1, U2). -/
def Observer.lost (o : Observer) : Observer := { o with stage := .unknown, ctrl := Controller.unknown, due := 0 }

/-- `INIT` has completed when its last byte, the entry mode, has been received and has settled (R150, R151). -/
def Observer.complete (o : Observer) : Observer :=
  if o.stage = .starting ∧ o.ctrl.mode = some .four ∧ o.ctrl.high = none ∧ o.ctrl.disp ≠ none ∧ o.ctrl.entry ≠ none ∧
      o.due ≤ o.waited
  then { o with stage := .ready } else o

/-- Time passes. -/
def Observer.elapse (n : Nat) (o : Observer) : Observer :=
  Observer.complete { o with waited := o.waited + n, awaiting := o.awaiting - n }

/-- Enable rises: too early when a delay is still running (U1, R278). -/
def Observer.rise (o : Observer) : Observer :=
  { (if o.waited < o.due ∨ o.awaiting ≠ 0 then o.lost else o) with waited := 0 }

/-- A latched nibble reaches the controller; the delay it needs starts. -/
def Observer.take (need : Needs) (p : Line × Nibble) (o : Observer) : Observer :=
  { o with ctrl := o.ctrl.nibble p, due := need.after o.ctrl p, waited := 0 }

/-- Enable falls at the end of a pulse and `p` is latched. A pulse that is too short, or a nibble after which the bus mode
of an initialised controller is not known, loses everything. -/
def Observer.fall (need : Needs) (p : Line × Nibble) (o : Observer) : Observer :=
  match o.stage with
  | .unknown  => { o with waited := 0 }
  | .starting => if o.waited < need.en then o.lost else (o.take need p).complete
  | .ready    => if o.waited < need.en ∨ (o.ctrl.nibble p).mode = none then o.lost else o.take need p

/-- A byte on the bus (R82). -/
def Observer.byte (need : Needs) (a : BusAddr) (v : Byte) (o : Observer) : Observer :=
  let moved :=
    if enBit v = 1 then o.rise
    else match o.line with
      | some (b, u) => if b = a ∧ enBit u = 1 then o.fall need (rsBit v, hiNibble v) else o
      | none        => o
  { moved with line := some (a, v) }

/-- A command is accepted: `INIT` starts from whatever state the controller is in (R266); any other command before `INIT`
has completed leaves nothing known (R272). -/
def Observer.accepted (i : Instr) (o : Observer) : Observer :=
  if i = .init then { o with stage := .starting, ctrl := Controller.unknown, due := 0 }
  else if o.stage = .starting then o.lost
  else o

/-- One sight. -/
def Observer.see (need : Needs) (o : Observer) : Sight → Observer
  | .powerUp          => { o.lost with waited := 0, awaiting := need.powerOn }
  | .elapse n         => o.elapse n
  | .accepted i       => o.accepted i
  | .event (.tx a v)  => o.byte need a v
  | .event (.wait n)  => o.elapse n.toNat
  | .reset interrupts => if interrupts then o.lost else o

/-- Sights in order. -/
def Observer.watch (need : Needs) (o : Observer) (sights : List Sight) : Observer := sights.foldl (Observer.see need) o

/-- What the watcher will have worked out when the running operation has ended. -/
def Observer.atEnd (need : Needs) (o : Observer) (s : State) : Observer :=
  o.watch need (s.pending.map Sight.event)

end Sys2Proof.Machine
end

