-- ==== Sys2Proof/Machine/Sights.lean ====
section
/-! DEFINITION. What a step shows to the watcher of Observer.lean (spec/70_reset_and_hazards.md R251, R272). -/

namespace Sys2Proof.Machine

/-- The event of the micro-step at the head of SEQ, if any. -/
def State.headSight (s : State) : List Sight := s.seq.head?.toList.map (fun m => Sight.event (m.act.event s.cfg.addr))

/-- What the step from `s` shows: the acceptance of a command, one event of OUT, or a reset, before which a requested `TX`
may still have reached the bus (R251). -/
def State.sights (s : State) : List Sight :=
  match s.inputs with
  | []            => s.headSight
  | .pass :: _    => s.headSight
  | .reset :: _   => s.landed.map (fun a => Sight.event (a.event s.cfg.addr)) ++ [.reset (!s.idle)]
  | .command w :: _ =>
    if s.idle then
      match decode w with
      | .ok i    => [.accepted i]
      | .error _ => []
    else s.headSight

end Sys2Proof.Machine
end

