-- ==== Sys2Proof/WellFormed.lean ====
section
/-! DEFINITION. What is checked. A command needs no check beyond its types: every operand value is accepted, clamped or
reduced, never an error (spec/60_exceptions.md R221). The configuration is checked against the constraints the spec
puts on the timing parameters (spec/00_scope.md R8, R9) and on their being present (R38). -/

namespace Sys2Proof

/-- Every command is well formed with every operand value (R105, R221). -/
def Instr.wf : Instr → Bool
  | .init | .clear | .home => true
  | .leftToRight | .rightToLeft | .autoscrollOn | .autoscrollOff => true
  | .displayOn | .displayOff | .cursorOn | .cursorOff | .blinkOn | .blinkOff => true
  | .scrollLeft | .scrollRight => true
  | .defineGlyph _ _ | .setCursor _ _ | .writeChar _ => true
  | .backlightOn | .backlightOff => true

/-- `T_LONG > T_SETTLE` and `T_LONG > T_WRITE` (R8, R162). -/
def Cfg.longSettles (c : Cfg) : Bool :=
  decide (c.tSettle < c.tLong) && decide (c.tWrite < c.tLong)

/-- `T_INIT1 >= T_INIT2 >= T_INIT3` (R9). -/
def Cfg.primesDecrease (c : Cfg) : Bool :=
  decide (c.tInit3 ≤ c.tInit2) && decide (c.tInit2 ≤ c.tInit1)

/-- Every duration other than `T_GAP` is nonzero: the premise under which R38 counts micro-steps. -/
def Cfg.waitsPresent (c : Cfg) : Bool :=
  c.tEn != 0 && c.tSettle != 0 && c.tLong != 0 && c.tWrite != 0 &&
    c.tInit1 != 0 && c.tInit2 != 0 && c.tInit3 != 0

/-- A configuration that meets the spec's constraints on its durations (R8, R9). -/
def Cfg.wf (c : Cfg) : Bool :=
  c.longSettles && c.primesDecrease

end Sys2Proof
end

