-- ==== Sys2Proof/Safety.lean ====
section
/-! DEFINITION. What counts as a sound state and a safe run: the invariants of the engine (spec/10_state.md R39), the shape of
its trace (spec/30_encoding.md R91), the well-formed geometry (spec/47_glyph_cursor_char.md R203), and the order of boot
the host must keep (spec/70_reset_and_hazards.md R260 to R262). -/

namespace Sys2Proof.Machine

/-- A transport event is addressed to the expander and keeps read/write low (R22, R61, R91); a wait is never 0 (R17). -/
abbrev Event.sound (addr : BusAddr) : Event → Prop
  | .tx a v => a = addr ∧ rwBit v = 0
  | .wait n => n ≠ 0

/-- A micro-step of an operation: read/write is low in its latches and in its byte (R22), and a wait is not 0. -/
abbrev Micro.sound (m : Micro) : Prop :=
  m.lat.rw = 0 ∧
    match m.act with
    | .tx v   => rwBit v = 0
    | .wait n => n ≠ 0

/-- The invariants of every reachable state (R39). -/
structure State.Inv (s : State) : Prop where
  /-- RW is always 0 (R22). -/
  rwLow      : s.lat.rw = 0
  /-- EN and TMR are 0 whenever SEQ is idle (R23, R34). -/
  idleLow    : s.seq = [] → s.lat.en = 0 ∧ s.tmr = 0
  /-- Every micro-step of SEQ is sound. -/
  seqSound   : ∀ m ∈ s.seq, m.sound
  /-- An operation ends with EN low (R130). -/
  lastLow    : ∀ m, s.seq.getLast? = some m → m.lat.en = 0
  /-- The micro-step at the head has started: its latch values stand, and TMR holds at most what it loaded (R34). -/
  started    : ∀ m, s.seq.head? = some m → s.lat = m.lat ∧ s.tmr ≤ m.act.load
  /-- Every event of OUT is sound. -/
  outSound   : ∀ e ∈ s.out, e.sound s.cfg.addr
  /-- Every event before the last reset is sound. -/
  pastSound  : ∀ e ∈ s.past, e.sound s.cfg.addr
  /-- The bytes held on the bus are in canonical form. -/
  busWf      : s.bus.wf

/-- Where a trace stands in an enable pulse (R130). -/
inductive Pulse where
  /-- Enable is low. -/
  | low
  /-- This byte raised enable. -/
  | raised (a : BusAddr) (v : Byte)
  /-- This byte raised enable and the pulse width has been waited. -/
  | held (a : BusAddr) (v : Byte)
  deriving DecidableEq, Repr

/-- The next event of a trace whose pulses are whole (R91, R130): a byte with enable high is followed by `Wait(T_EN)` (by no
wait when `T_EN` is 0) and then by the same byte, to the same address, with bit 2 cleared. None when that is broken. -/
def pulseNext (tEn : Units) : Pulse → Event → Option Pulse
  | .low,        .tx a v => some (if enBit v = 0 then .low else if tEn = 0 then .held a v else .raised a v)
  | .low,        .wait _ => some .low
  | .raised a v, .wait n => if n = tEn then some (.held a v) else none
  | .raised _ _, .tx _ _ => none
  | .held a v,   .tx b w => if b = a ∧ w = v &&& 0xFB then some .low else none
  | .held _ _,   .wait _ => none

/-- Follow a trace from a point of a pulse. -/
def pulseScan (tEn : Units) : Pulse → List Event → Option Pulse
  | p, []      => some p
  | p, e :: es =>
    match pulseNext tEn p e with
    | some q => pulseScan tEn q es
    | none   => none

/-- Every enable pulse of a trace is whole and complete (R91). -/
def pulsesWhole (tEn : Units) (es : List Event) : Prop := pulseScan tEn .low es = some .low

/-- What has been sent and what the running operation has still to send, together: the trace the run is committed to
(R73: an operation runs all its micro-steps to the end). -/
def State.committed (s : State) : List Event := s.out ++ s.pending

/-- A well-formed geometry (R203): `ROWOFF[r] + COLMAX <= 0x7F` for every row the configuration has. -/
def geometryWf (c : Cfg) : Bool :=
  (List.range ((rowMax c).toNat + 1)).all
    (fun r => decide ((rowOff (BitVec.ofNat 2 r)).toNat + (colMax c).toNat ≤ 0x7F))

/-- The watched controller between two operations: initialised, in 4-bit mode with no nibble pending (R70), enable low (R23),
and no delay still running (R143, R262). -/
structure Observer.Ready (o : Observer) : Prop where
  ready   : o.stage = .ready
  four    : o.ctrl.mode = some .four
  phase   : o.ctrl.high = none
  lineLow : ∀ a v, o.line = some (a, v) → enBit v = 0
  settled : o.due ≤ o.waited
  powered : o.awaiting = 0

/-- The watched controller keeps step with the engine: when the running operation has ended it is ready, its display-control
flags are DISP, and its entry-mode flags are ENTRY unless the source leaves them open, which it does after a clear (R28,
R47, R273; N13). -/
structure Observer.InStep (need : Needs) (o : Observer) (s : State) : Prop where
  ready : (o.atEnd need s).Ready
  disp  : (o.atEnd need s).known.disp = some s.disp
  entry : (o.atEnd need s).known.entry = some s.entry ∨ (o.atEnd need s).known.entry = none

/-- What the host and the platform do around the engine (R260). -/
inductive HostAct where
  /-- The display is powered. -/
  | powerUp
  /-- Time passes, in time units. -/
  | elapse (n : Nat)
  /-- Reset, and whether it interrupts a running operation. -/
  | reset (interrupts : Bool)
  /-- A command is issued and runs to its end. -/
  | issue (i : Instr)
  deriving DecidableEq, Repr

/-- What the boot discipline remembers. -/
structure BootState where
  /-- The engine has been reset since its construction (R260, step 2). -/
  wasReset : Bool
  /-- The time since the display was powered (R262). -/
  waited   : Nat
  /-- `INIT` has been issued since power-up and since the last reset that interrupted an operation (R261). -/
  ready    : Bool
  deriving DecidableEq, Repr

/-- Where the boot starts: constructed, not reset yet, the display just powered (R260, step 1). -/
def BootState.start : BootState where
  wasReset := false
  waited   := 0
  ready    := false

/-- One act under the boot requirements (R260 to R262): none when it breaks them. Every command, the backlight commands
among them, comes after the engine has been reset (R260, step 2); `INIT` comes after the power-on wait (step 3); any other
command that sends an instruction comes after `INIT` (steps 4 and 5); the backlight commands may come before or after
`INIT` (R215 (e)). Log entry 24. -/
def bootStep (powerOn : Nat) (b : BootState) : HostAct → Option BootState
  | .powerUp   => some { b with waited := 0, ready := false }
  | .elapse n  => some { b with waited := b.waited + n }
  | .reset itr => some { b with wasReset := true, ready := b.ready && !itr }
  | .issue i   =>
    if b.wasReset = false then none
    else if i = .init then (if powerOn ≤ b.waited then some { b with ready := true } else none)
    else if i.sendsInstruction then (if b.ready then some b else none)
    else some b

/-- A whole list of acts keeps the boot requirements. -/
def bootOk (powerOn : Nat) : BootState → List HostAct → Bool
  | _, []      => true
  | b, a :: as =>
    match bootStep powerOn b a with
    | some c => bootOk powerOn c as
    | none   => false

/-- A host that keeps the boot requirements for this display's `T_POWERON` (R13, R262), from construction and power-up on. -/
def bootDisciplined (acts : List HostAct) : Bool :=
  bootOk Config.tPowerOn .start acts

end Sys2Proof.Machine
end

