-- ==== Sys2Proof/Safety/Shape.lean ====
section
/-! DEFINITION. The traces and register values the spec gives each command, in closed form (spec/41_transmission.md R136,
spec/42_init.md R151, spec/47_glyph_cursor_char.md R200, spec/48_backlight.md R215). They are written from the rules' tables
and formulas, not from the machine's procedures: statements compare the machine with them. -/

namespace Sys2Proof.Machine

/-- `[Wait(n)]`, absent when `n = 0` (R17). -/
def waitTrace (n : Units) : List Event := if n = 0 then [] else [.wait n]

/-- The static flag bits `f = RS | (BL << 3)` of an operation (R136). -/
def staticBits (rs bl : Line) : Byte := rs.setWidth 8 ||| (bl.setWidth 8 <<< 3)

/-- The transmission of one instruction byte in full, and its settle wait (R136). -/
def instrTrace (c : Cfg) (rs bl : Line) (b : Byte) (t : Units) : List Event :=
  [.tx c.addr ((b &&& 0xF0) ||| staticBits rs bl ||| 0x04)] ++ waitTrace c.tEn ++
  [.tx c.addr ((b &&& 0xF0) ||| staticBits rs bl)] ++ waitTrace c.tGap ++
  [.tx c.addr (((b <<< 4) &&& 0xF0) ||| staticBits rs bl ||| 0x04)] ++ waitTrace c.tEn ++
  [.tx c.addr (((b <<< 4) &&& 0xF0) ||| staticBits rs bl)] ++ waitTrace t

/-- The transmission of the high nibble alone, with RS = 0, and its wait (R132, R151). -/
def halfTrace (c : Cfg) (bl : Line) (b : Byte) (t : Units) : List Event :=
  [.tx c.addr ((b &&& 0xF0) ||| staticBits 0 bl ||| 0x04)] ++ waitTrace c.tEn ++
  [.tx c.addr ((b &&& 0xF0) ||| staticBits 0 bl)] ++ waitTrace t

/-- `Command(b, t)` (R134, R136). -/
def commandTrace (c : Cfg) (bl : Line) (b : Byte) (t : Units) : List Event := instrTrace c 0 bl b t

/-- `Data(b)` (R135, R136). -/
def dataTrace (c : Cfg) (bl : Line) (b : Byte) : List Event := instrTrace c 1 bl b c.tWrite

/-- The last transport byte of a full transmission: the low nibble with enable low (R136). -/
def lastByte (rs bl : Line) (b : Byte) : Byte := ((b <<< 4) &&& 0xF0) ||| staticBits rs bl

/-- The eight phases of `INIT` (R151), for the flag register values it sends. -/
def initTrace (c : Cfg) (bl : Line) (entry' : BitVec 2) (disp' : BitVec 3) : List Event :=
  halfTrace c bl 0x30 c.tInit1 ++ halfTrace c bl 0x30 c.tInit2 ++ halfTrace c bl 0x30 c.tInit3 ++
  halfTrace c bl 0x20 c.tSettle ++
  commandTrace c bl 0x28 c.tSettle ++
  commandTrace c bl (0x08 ||| disp'.setWidth 8) c.tSettle ++
  commandTrace c bl 0x01 c.tLong ++
  commandTrace c bl (0x04 ||| entry'.setWidth 8) c.tSettle

/-- The ten instructions of `DEFINE_GLYPH` (R200). -/
def glyphTrace (c : Cfg) (bl : Line) (a : Byte) (g : Payload) : List Event :=
  commandTrace c bl ((0x40 : Byte) ||| ((a &&& 0x07) <<< 3)) c.tSettle ++
  (List.range 8).flatMap (fun k => dataTrace c bl ((g >>> (8 * k)).setWidth 8)) ++
  commandTrace c bl 0x80 c.tSettle

/-- The byte of `SET_CURSOR a, b` (R201, R203), computed in natural numbers: the clamped coordinates, the row offset, the
sum modulo 128, ORed into `0x80`. -/
def cursorByte (c : Cfg) (a b : Byte) : Byte :=
  let columns := max 1 c.colsCfg.toNat
  let lines := min 4 (max 1 c.rowsCfg.toNat)
  let col := min a.toNat (columns - 1)
  let row := min b.toNat (lines - 1)
  BitVec.ofNat 8 (0x80 + (([0x00, 0x40, 0x14, 0x54].getD row 0) + col) % 128)

/-- The registers an operation reads and writes beside the latches (R32). -/
structure Regs where
  bl    : Line
  entry : BitVec 2
  disp  : BitVec 3
  deriving DecidableEq, Repr

/-- The registers of a state. -/
def State.regs (s : State) : Regs := { bl := s.bl, entry := s.entry, disp := s.disp }

/-- The registers after a command: the "Flags written" of its rule (R32, R150, R170 to R173, R180 to R185, R215, R216). -/
def regsAfter : Instr → Regs → Regs
  | .init,          r => { r with entry := r.entry ||| 0b10, disp := r.disp ||| 0b100 }
  | .leftToRight,   r => { r with entry := r.entry ||| 0b10 }
  | .rightToLeft,   r => { r with entry := r.entry &&& 0b01 }
  | .autoscrollOn,  r => { r with entry := r.entry ||| 0b01 }
  | .autoscrollOff, r => { r with entry := r.entry &&& 0b10 }
  | .displayOn,     r => { r with disp := r.disp ||| 0b100 }
  | .displayOff,    r => { r with disp := r.disp &&& 0b011 }
  | .cursorOn,      r => { r with disp := r.disp ||| 0b010 }
  | .cursorOff,     r => { r with disp := r.disp &&& 0b101 }
  | .blinkOn,       r => { r with disp := r.disp ||| 0b001 }
  | .blinkOff,      r => { r with disp := r.disp &&& 0b110 }
  | .backlightOn,   r => { r with bl := 1 }
  | .backlightOff,  r => { r with bl := 0 }
  | .clear, r | .home, r | .scrollLeft, r | .scrollRight, r => r
  | .defineGlyph _ _, r | .setCursor _ _, r | .writeChar _, r => r

/-- The events a command adds to OUT, from the registers before it (the "Emits" of its rule, R104). -/
def traceOf (c : Cfg) (i : Instr) (r : Regs) : List Event :=
  let r' := regsAfter i r
  match i with
  | .init            => initTrace c r.bl r'.entry r'.disp
  | .clear           => commandTrace c r.bl 0x01 c.tLong
  | .home            => commandTrace c r.bl 0x02 c.tLong
  | .leftToRight | .rightToLeft | .autoscrollOn | .autoscrollOff =>
    commandTrace c r.bl (0x04 ||| r'.entry.setWidth 8) c.tSettle
  | .displayOn | .displayOff | .cursorOn | .cursorOff | .blinkOn | .blinkOff =>
    commandTrace c r.bl (0x08 ||| r'.disp.setWidth 8) c.tSettle
  | .scrollLeft      => commandTrace c r.bl 0x18 c.tSettle
  | .scrollRight     => commandTrace c r.bl 0x1C c.tSettle
  | .defineGlyph a g => glyphTrace c r.bl a g
  | .setCursor a b   => commandTrace c r.bl (cursorByte c a b) c.tSettle
  | .writeChar a     => dataTrace c r.bl a
  | .backlightOn     => [.tx c.addr 0x08]
  | .backlightOff    => [.tx c.addr 0x00]

/-- The registers after a program. -/
def regsAfterAll : List Instr → Regs → Regs
  | [],      r => r
  | i :: is, r => regsAfterAll is (regsAfter i r)

/-- The events of a program: those of its commands, in order, each from the registers the ones before it left (R77 (c)). -/
def traceOfAll (c : Cfg) : List Instr → Regs → List Event
  | [],      _ => []
  | i :: is, r => traceOf c i r ++ traceOfAll c is (regsAfter i r)

end Sys2Proof.Machine
end

