-- ==== Sys2Proof/Certificates/Slice0/Obligations.lean ====
section
/-! DEFINITION. The statements for the provers. Each docstring names the rules of spec/ it formalises. Every statement
holds for every configuration unless it names one. -/

open Sys2Proof Sys2Proof.Machine

/-! ### Encoding -/

/-- The assembler's word of every command decodes to that command, with every operand (spec/30_encoding.md R102 to R104,
R109). -/
def Obligations.DecodeOfEncodeIsIdentity : Prop :=
  ∀ i : Instr, i.wf = true → decode (encode i) = .ok i

/-- A word that decodes is the assembler's word of its command up to the fields the command's format ignores (R103). -/
def Obligations.EncodeOfDecodeClearsOnlyIgnoredFields : Prop :=
  ∀ (w : CmdWord) (i : Instr), decode w = .ok i → encode i = clearIgnored i.format w

/-- Fields a format ignores have no effect, and `d_k = g[8k+7 : 8k]` (R103). -/
def Obligations.IgnoredFieldsHaveNoEffect : Prop :=
  (∀ (w w' : CmdWord) (i : Instr), decode w = .ok i → opField w' = opField w →
    (i.format ≠ .n → aField w' = aField w) →
    (i.format = .ab → bField w' = bField w) →
    (i.format = .ag → gField w' = gField w) →
    decode w' = .ok i) ∧
  ∀ (g : Payload) (k j : Nat), k < 8 → j < 8 → (glyphByte g k).getLsbD j = g.getLsbD (8 * k + j)

/-- A word with opcode 0x00 or 0x15 to 0xFF on the command port of an idle engine is refused by name, in a step and in a
clock cycle; every other word decodes (R106, the sentence on the model; U8). -/
def Obligations.ReservedWordsAreRefused : Prop :=
  (∀ (s : State) (w : CmdWord) (rest : List Input), s.seq = [] → s.inputs = .command w :: rest →
    (opField w = 0x00 ∨ 0x15 ≤ opField w) → step s = .refused (.reservedOpcode (opField w))) ∧
  (∀ (p : PortIn) (s : State), (portOut p s).cmdReady = true → p.cmdValid = true →
    (opField p.cmdWord = 0x00 ∨ 0x15 ≤ opField p.cmdWord) →
    cycle p s = .refused (.reservedOpcode (opField p.cmdWord))) ∧
  ∀ w : CmdWord, opField w ≠ 0x00 → opField w < 0x15 → ∃ i, decode w = .ok i

/-- The assembler's word of every command is its opcode and operands shifted to their places, with every field its format
does not use at 0, and the rule's four examples (R109). -/
def Obligations.AssembledWordIsShiftedFields : Prop :=
  (∀ oi ∈ [(0x01#88, Instr.init), (0x02, .clear), (0x03, .home), (0x04, .leftToRight), (0x05, .rightToLeft),
           (0x06, .autoscrollOn), (0x07, .autoscrollOff), (0x08, .displayOn), (0x09, .displayOff),
           (0x0A, .cursorOn), (0x0B, .cursorOff), (0x0C, .blinkOn), (0x0D, .blinkOff), (0x0E, .scrollLeft),
           (0x0F, .scrollRight), (0x13, .backlightOn), (0x14, .backlightOff)],
    encode oi.2 = oi.1 <<< 80) ∧
  (∀ (a : Byte) (g : Payload),
    encode (.defineGlyph a g) = (0x10 <<< 80) ||| (a.setWidth 88 <<< 72) ||| g.setWidth 88) ∧
  (∀ a b : Byte, encode (.setCursor a b) = (0x11 <<< 80) ||| (a.setWidth 88 <<< 72) ||| (b.setWidth 88 <<< 64)) ∧
  (∀ a : Byte, encode (.writeChar a) = (0x12 <<< 80) ||| (a.setWidth 88 <<< 72)) ∧
  encode .clear = 0x0200000000000000000000 ∧
  encode (.setCursor 5 1) = 0x1105010000000000000000 ∧
  encode (.writeChar 0x41) = 0x1241000000000000000000 ∧
  encode (.defineGlyph 3 (packGlyph 0x00 0x0A 0x1F 0x1F 0x0E 0x04 0x00 0x00)) = 0x1003000000040E1F1F0A00

/-- A few words of the opcode table, one of each family, written out from the table (R104). A sanity statement. -/
def Obligations.WordsOfEachFamilyDecode : Prop :=
  decode 0x0100000000000000000000 = .ok .init ∧
  decode 0x0300000000000000000000 = .ok .home ∧
  decode 0x0600000000000000000000 = .ok .autoscrollOn ∧
  decode 0x0D00000000000000000000 = .ok .blinkOff ∧
  decode 0x0F00000000000000000000 = .ok .scrollRight ∧
  decode 0x1119090000000000000000 = .ok (.setCursor 25 9) ∧
  decode 0x1400000000000000000000 = .ok .backlightOff

/-! ### The signal encoder -/

/-- The transport byte: bit 0 RS, bit 1 RW, bit 2 EN, bit 3 BL, bits 7:4 the nibble (R90, R120). -/
def Obligations.FrameBitLayout : Prop :=
  ∀ (l : Latches) (bl : Line) (nib : Nibble),
    rsBit (frame l bl nib) = l.rs ∧ rwBit (frame l bl nib) = l.rw ∧ enBit (frame l bl nib) = l.en ∧
    blBit (frame l bl nib) = bl ∧ hiNibble (frame l bl nib) = nib

/-- The two nibble frames of a byte recombine to it, whatever the latches (R125). -/
def Obligations.NibbleFramesRecombine : Prop :=
  ∀ (l : Latches) (bl : Line) (b : Byte), (frameHigh l bl b &&& 0xF0) ||| (frameLow l bl b >>> 4) = b

/-! ### What each command does

Each statement says: an idle engine accepts the command and its operation ends in exactly this state. What the record
update does not name is unchanged: that is the frame. -/

/-- `INIT` (R150, R151): the eight phases, DON and DIR set, nothing cleared, BL kept. -/
def Obligations.InitRunsTheHandshake : Prop :=
  ∀ s : State, s.seq = [] → ∃ t, exec .init s = .next t ∧
    t.finish = { s with
      entry := s.entry ||| 0b10, disp := s.disp ||| 0b100, tmr := 0
      lat := ⟨0, 0, 0, 0x04 ||| (s.entry ||| 0b10).setWidth 8⟩
      out := s.out ++ initTrace s.cfg s.bl (s.entry ||| 0b10) (s.disp ||| 0b100)
      bus := s.bus.write s.cfg.addr.toNat (lastByte 0 s.bl (0x04 ||| (s.entry ||| 0b10).setWidth 8)) }

/-- `CLEAR` and `HOME` (R160, R161): one instruction, the long settle wait, no flag written. -/
def Obligations.ClearAndHomeSendOneInstruction : Prop :=
  ∀ s : State, s.seq = [] →
    (∃ t, exec .clear s = .next t ∧
      t.finish = { s with
        lat := ⟨0, 0, 0, 0x01⟩, tmr := 0, out := s.out ++ commandTrace s.cfg s.bl 0x01 s.cfg.tLong
        bus := s.bus.write s.cfg.addr.toNat (lastByte 0 s.bl 0x01) }) ∧
    (∃ t, exec .home s = .next t ∧
      t.finish = { s with
        lat := ⟨0, 0, 0, 0x02⟩, tmr := 0, out := s.out ++ commandTrace s.cfg s.bl 0x02 s.cfg.tLong
        bus := s.bus.write s.cfg.addr.toNat (lastByte 0 s.bl 0x02) })

/-- The entry-mode commands (R170 to R174): one bit of ENTRY set or cleared, the other kept, and `0x04 | ENTRY` sent with
the new value. -/
def Obligations.EntryModeCommandsUpdateAndResend : Prop :=
  ∀ s : State, s.seq = [] →
    ∀ ie ∈ [(Instr.leftToRight, s.entry ||| 0b10#2), (Instr.rightToLeft, s.entry &&& 0b01#2),
            (Instr.autoscrollOn, s.entry ||| 0b01#2), (Instr.autoscrollOff, s.entry &&& 0b10#2)],
      ∃ t, exec ie.1 s = .next t ∧
        t.finish = { s with
          entry := ie.2, tmr := 0
          lat := ⟨0, 0, 0, 0x04 ||| ie.2.setWidth 8⟩
          out := s.out ++ commandTrace s.cfg s.bl (0x04 ||| ie.2.setWidth 8) s.cfg.tSettle
          bus := s.bus.write s.cfg.addr.toNat (lastByte 0 s.bl (0x04 ||| ie.2.setWidth 8)) }

/-- The display-control commands (R180 to R186): one bit of DISP set or cleared, the others kept, and `0x08 | DISP` sent
with the new value. -/
def Obligations.DisplayControlCommandsUpdateAndResend : Prop :=
  ∀ s : State, s.seq = [] →
    ∀ ie ∈ [(Instr.displayOn, s.disp ||| 0b100#3), (Instr.displayOff, s.disp &&& 0b011#3),
            (Instr.cursorOn, s.disp ||| 0b010#3), (Instr.cursorOff, s.disp &&& 0b101#3),
            (Instr.blinkOn, s.disp ||| 0b001#3), (Instr.blinkOff, s.disp &&& 0b110#3)],
      ∃ t, exec ie.1 s = .next t ∧
        t.finish = { s with
          disp := ie.2, tmr := 0
          lat := ⟨0, 0, 0, 0x08 ||| ie.2.setWidth 8⟩
          out := s.out ++ commandTrace s.cfg s.bl (0x08 ||| ie.2.setWidth 8) s.cfg.tSettle
          bus := s.bus.write s.cfg.addr.toNat (lastByte 0 s.bl (0x08 ||| ie.2.setWidth 8)) }

/-- `SCROLL_LEFT` and `SCROLL_RIGHT` (R190, R191): the fixed instructions 0x18 and 0x1C, no flag read or written. -/
def Obligations.ScrollCommandsSendFixedInstructions : Prop :=
  ∀ s : State, s.seq = [] →
    ∀ ib ∈ [(Instr.scrollLeft, 0x18#8), (Instr.scrollRight, 0x1C#8)],
      ∃ t, exec ib.1 s = .next t ∧
        t.finish = { s with
          lat := ⟨0, 0, 0, ib.2⟩, tmr := 0, out := s.out ++ commandTrace s.cfg s.bl ib.2 s.cfg.tSettle
          bus := s.bus.write s.cfg.addr.toNat (lastByte 0 s.bl ib.2) }

/-- `SET_CURSOR` (R201): the byte of the clamped position, for every operand pair; the position is not remembered. -/
def Obligations.SetCursorSendsTheClampedAddress : Prop :=
  ∀ (s : State) (a b : Byte), s.seq = [] → ∃ t, exec (.setCursor a b) s = .next t ∧
    t.finish = { s with
      lat := ⟨0, 0, 0, cursorByte s.cfg a b⟩, tmr := 0
      out := s.out ++ commandTrace s.cfg s.bl (cursorByte s.cfg a b) s.cfg.tSettle
      bus := s.bus.write s.cfg.addr.toNat (lastByte 0 s.bl (cursorByte s.cfg a b)) }

/-- `WRITE_CHAR` (R202): the byte unchanged with RS = 1, and the short settle wait. -/
def Obligations.WriteCharSendsTheByte : Prop :=
  ∀ (s : State) (a : Byte), s.seq = [] → ∃ t, exec (.writeChar a) s = .next t ∧
    t.finish = { s with
      lat := ⟨1, 0, 0, a⟩, tmr := 0, out := s.out ++ dataTrace s.cfg s.bl a
      bus := s.bus.write s.cfg.addr.toNat (lastByte 1 s.bl a) }

/-- `DEFINE_GLYPH` (R200): the CGRAM address of the slot modulo 8, the eight bytes unmasked in order, and DDRAM address 0;
no flag written; and slots equal modulo 8 are the same command. -/
def Obligations.DefineGlyphSendsTenInstructions : Prop :=
  (∀ (s : State) (a : Byte) (g : Payload), s.seq = [] → ∃ t, exec (.defineGlyph a g) s = .next t ∧
    t.finish = { s with
      lat := ⟨0, 0, 0, 0x80⟩, tmr := 0, out := s.out ++ glyphTrace s.cfg s.bl a g
      bus := s.bus.write s.cfg.addr.toNat (lastByte 0 s.bl 0x80) }) ∧
  ∀ (s : State) (a a' : Byte) (g : Payload), a.toNat % 8 = a'.toNat % 8 →
    exec (.defineGlyph a g) s = exec (.defineGlyph a' g) s

/-- `BACKLIGHT_ON` and `BACKLIGHT_OFF` (R215, R216): BL, one transport byte 0x08 or 0x00, no wait, and no latch touched. -/
def Obligations.BacklightCommandsWriteOneByte : Prop :=
  ∀ s : State, s.seq = [] →
    (∃ t, exec .backlightOn s = .next t ∧
      t.finish = { s with
        bl := 1, tmr := 0, out := s.out ++ [.tx s.cfg.addr 0x08], bus := s.bus.write s.cfg.addr.toNat 0x08 }) ∧
    (∃ t, exec .backlightOff s = .next t ∧
      t.finish = { s with
        bl := 0, tmr := 0, out := s.out ++ [.tx s.cfg.addr 0x00], bus := s.bus.write s.cfg.addr.toNat 0x00 })

/-- The frame of every command (R32, R150, R160, R200 to R202, R215): the bytes held on the bus change at ADDR only, where
the last byte of the command's trace is held; of the latches and registers only those of the command's row are written;
and the model's own fields and the configuration stay. That TMR ends at 0 is log entry 10. -/
def Obligations.CommandsChangeOnlyWhatTheirRowNames : Prop :=
  ∀ (i : Instr) (s : State), s.seq = [] → ∃ t, exec i s = .next t ∧
    (∀ a : Nat, a ≠ s.cfg.addr.toNat → t.finish.bus.read a = s.bus.read a) ∧
    t.finish.bus.read s.cfg.addr.toNat = (txEvents (traceOf s.cfg i s.regs)).getLast?.map Prod.snd ∧
    (i ≠ .backlightOn → i ≠ .backlightOff → t.finish.bl = s.bl ∧ t.finish.lat.rw = 0 ∧ t.finish.lat.en = 0 ∧
      t.finish.lat.rs = (match i with | .writeChar _ => 1 | _ => 0)) ∧
    (i = .backlightOn ∨ i = .backlightOff → t.finish.lat = s.lat) ∧
    (i ≠ .leftToRight → i ≠ .rightToLeft → i ≠ .autoscrollOn → i ≠ .autoscrollOff → i ≠ .init →
      t.finish.entry = s.entry) ∧
    (i ≠ .displayOn → i ≠ .displayOff → i ≠ .cursorOn → i ≠ .cursorOff → i ≠ .blinkOn → i ≠ .blinkOff → i ≠ .init →
      t.finish.disp = s.disp) ∧
    t.finish.cfg = s.cfg ∧ t.finish.seq = [] ∧ t.finish.tmr = 0 ∧ t.finish.inputs = s.inputs ∧
    t.finish.past = s.past ∧ t.finish.draws = s.draws

/-! ### The step, acceptance and the sequencer -/

/-- When the word on the command port of an idle engine decodes to a command, the step is that command's meaning, at the
state with the word taken off the port. -/
def Obligations.StepRunsTheDecodedCommand : Prop :=
  ∀ (s : State) (w : CmdWord) (i : Instr) (rest : List Input),
    s.seq = [] → s.inputs = .command w :: rest → decode w = .ok i → step s = exec i { s with inputs := rest }

/-- A word placed for the next step is run by the next step (the model's host interface, log entry 3). -/
def Obligations.PlacedWordRunsNext : Prop :=
  ∀ (s : State) (nbits w : Nat) (i : Instr), decodeTableWord nbits w = some i →
    step (s.withFetchWord nbits w) = exec i { s with seq := [], tmr := 0 }

/-- A command presented while the engine is busy is not accepted (`cmd_ready` is low): it has no effect, it is neither
queued nor dropped but stays on the command port, and the running operation goes on (R226). -/
def Obligations.BusyEngineAcceptsNothing : Prop :=
  ∀ s : State, s.seq ≠ [] →
    (∀ p : PortIn, (portOut p s).cmdReady = false) ∧
    (∀ i : Instr, exec i s = .next s) ∧
    ∀ (w : CmdWord) (rest : List Input), s.inputs = .command w :: rest →
      ∃ t, step s = .next t ∧ t.inputs = s.inputs ∧ t.seq = s.seq.tail ∧
        t.bl = s.bl ∧ t.entry = s.entry ∧ t.disp = s.disp

/-- One micro-step at a time (R37): with no input the head of SEQ is removed and its event appended to OUT, and the latches
of the next micro-step stand when it starts; nothing else of the engine changes. An idle engine with no input stays as it
is (R43, R241). A step whose input is `pass` is the step with no input, with the pass taken off. The moments of the
latches and of TMR, the idle step and the input `pass` are log entries 9, 10, 23 and 2. -/
def Obligations.OneMicroStepPerStep : Prop :=
  (∀ (s : State) (m : Micro) (ms : List Micro), s.seq = m :: ms → s.inputs = [] →
    ∃ t, step s = .next t ∧ t.seq = ms ∧ t.out = s.out ++ [m.act.event s.cfg.addr] ∧
      t.lat = (match ms with | [] => s.lat | n :: _ => n.lat) ∧
      t.tmr = (match ms with | [] => 0 | n :: _ => n.act.load) ∧
      t.bl = s.bl ∧ t.entry = s.entry ∧ t.disp = s.disp ∧ t.cfg = s.cfg ∧ t.past = s.past) ∧
  (∀ s : State, s.seq = [] → s.inputs = [] → step s = .next s) ∧
  ∀ (s : State) (rest : List Input), s.inputs = .pass :: rest →
    ∃ t, step { s with inputs := [] } = .next t ∧ step s = .next { t with inputs := rest }

/-- Once accepted an operation runs all its micro-steps to the end, in order and without another command's among them,
whatever the host does at the inputs meanwhile, unless a reset comes (R73, R77): the host may pass for any number of steps
and may then do nothing or hold a command word, or pass until the operation has ended. A pass is used up by the step that
meets it. -/
def Obligations.OperationRunsToItsEnd : Prop :=
  ∀ (s : State) (passes : Nat) (rest : List Input), s.inputs = List.replicate passes .pass ++ rest →
    (rest = [] ∨ (∃ w later, rest = .command w :: later) ∨ s.seq.length ≤ passes) →
    ∃ t, Host.Core.run Sys2Proof.core s.seq.length s = .next t ∧
      t = { s.finish with inputs := List.replicate (passes - s.seq.length) .pass ++ rest } ∧
      t.seq = [] ∧ t.out = s.out ++ s.pending ∧ t.regs = s.regs ∧ t.cfg = s.cfg ∧ t.past = s.past

/-- Acceptance (R36): SEQ is loaded with the command's whole micro-step list, computed from the registers at that moment,
and BL, ENTRY and DISP take their new values at the same moment; OUT, the bus and the configuration do not change yet. -/
def Obligations.AcceptanceLoadsWholeOperation : Prop :=
  ∀ (i : Instr) (s : State), s.seq = [] → ∃ t, exec i s = .next t ∧
    t.pending = traceOf s.cfg i s.regs ∧ t.regs = regsAfter i s.regs ∧
    t.out = s.out ∧ t.bus = s.bus ∧ t.cfg = s.cfg ∧ t.inputs = s.inputs ∧ t.past = s.past ∧ t.draws = s.draws

/-- A program held on the command port of an idle engine runs as the spec's tables say: OUT grows by exactly the traces of
its commands in order, each from the registers the ones before it left, and the engine ends idle (R18, R77). That the run
finishes rests on log entry 12: at the event level every `Tx` completes. -/
def Obligations.ProgramRunsAsTheTablesSay : Prop :=
  ∀ (is : List Instr) (s : State), s.seq = [] → s.inputs = programInputs is →
    ∃ (k : Nat) (t : State), Host.Core.run Sys2Proof.core k s = .next t ∧ t.seq = [] ∧ t.inputs = [] ∧
      t.out = s.out ++ traceOfAll s.cfg is s.regs ∧ t.regs = regsAfterAll is s.regs ∧
      t.cfg = s.cfg ∧ t.past = s.past

/-- What the latches and TMR hold between operations never influences OUT or the registers (R21, R25). -/
def Obligations.IdleLatchesNeverReachTheTrace : Prop :=
  ∀ (is : List Instr) (s : State) (l : Latches) (n : Units), s.seq = [] →
    ({ s with lat := l, tmr := n }.issueAll is).out = (s.issueAll is).out ∧
    ({ s with lat := l, tmr := n }.issueAll is).regs = (s.issueAll is).regs ∧
    ({ s with lat := l, tmr := n }.issueAll is).bus = (s.issueAll is).bus

/-! ### Whole-machine rules -/

/-- The state after reset meets the invariants (R39, R41). -/
def Obligations.ResetStateIsSound : Prop := State.reset.Inv ∧ Cfg.default.wf = true

/-- Every step keeps the invariants (R39, R22, R23, R61, R91, R130). Of the clauses of `Inv`, that TMR is 0 while the engine is
idle and never above what the running wait loaded is the model's log entry 10, read from R34, and that the latch values of
the running micro-step stand is its log entry 9, read from R130. -/
def Obligations.EveryStepKeepsTheInvariants : Prop :=
  ∀ s t : State, s.Inv → step s = .next t → t.Inv

/-- Every clock cycle keeps the invariants, whatever the ports carry (R39, R22, R23, R225). The clauses of `Inv` on TMR and on
the standing latches are the model's log entries 10 and 9, read from R34 and R130. -/
def Obligations.EveryCycleKeepsTheInvariants : Prop :=
  ∀ (p : PortIn) (s t : State), s.Inv → cycle p s = .next t → t.Inv

/-- Every step keeps the shape of the trace: in OUT together with what is still to be sent, a byte with enable high is
always followed, after `Wait(T_EN)`, by the same byte with bit 2 cleared (R91). -/
def Obligations.EveryStepKeepsPulsesWhole : Prop :=
  ∀ s t : State, pulsesWhole s.cfg.tEn s.committed → step s = .next t → pulsesWhole t.cfg.tEn t.committed

/-- The expander holds the last transport byte written, across resets of the engine (R44, R217); the free value of U10 may
be either. -/
def Obligations.ExpanderHoldsTheLastByte : Prop :=
  ∀ s t : State, s.expanderLines = (txEvents s.history).getLast?.map Prod.snd → step s = .next t →
    t.expanderLines = (txEvents t.history).getLast?.map Prod.snd

/-- Every step leaves the configuration and every bus address but ADDR alone (R29, R30, R61). -/
def Obligations.OnlyTheExpanderIsWritten : Prop :=
  ∀ s t : State, step s = .next t →
    t.cfg = s.cfg ∧ ∀ a : Nat, a ≠ s.cfg.addr.toNat → t.bus.read a = s.bus.read a

/-- Which step writes which register (R32, R175, R187, R217): BL changes only when a backlight command is accepted or at
reset; ENTRY only by an entry-mode command, INIT or reset; DISP only by a display-control command, INIT or reset. -/
def Obligations.OnlyNamedCommandsWriteTheRegisters : Prop :=
  ∀ s t : State, step s = .next t →
    (∃ rest, s.inputs = .reset :: rest) ∨ t.regs = s.regs ∨
    ∃ (w : CmdWord) (i : Instr) (rest : List Input), s.seq = [] ∧ s.inputs = .command w :: rest ∧ decode w = .ok i ∧
      (t.bl ≠ s.bl → i = .backlightOn ∨ i = .backlightOff) ∧
      (t.entry ≠ s.entry →
        i = .leftToRight ∨ i = .rightToLeft ∨ i = .autoscrollOn ∨ i = .autoscrollOff ∨ i = .init) ∧
      (t.disp ≠ s.disp →
        i = .displayOn ∨ i = .displayOff ∨ i = .cursorOn ∨ i = .cursorOff ∨ i = .blinkOn ∨ i = .blinkOff ∨ i = .init)

/-- The cumulative property of ENTRY (R175): over any sequence of the four commands each bit is as the most recent command
that names it left it, or as it was; the byte sent carries both bits; and no other command but INIT, which sets DIR, writes
ENTRY. -/
def Obligations.EntryModeIsCumulative : Prop :=
  (∀ (is : List Instr) (s : State), s.seq = [] →
    (∀ i ∈ is, i = .leftToRight ∨ i = .rightToLeft ∨ i = .autoscrollOn ∨ i = .autoscrollOff) →
    (s.issueAll is).entry.getLsbD 1 =
      ((is.filter (fun i => i == .leftToRight || i == .rightToLeft)).getLast?.map (· == .leftToRight)).getD
        (s.entry.getLsbD 1) ∧
    (s.issueAll is).entry.getLsbD 0 =
      ((is.filter (fun i => i == .autoscrollOn || i == .autoscrollOff)).getLast?.map (· == .autoscrollOn)).getD
        (s.entry.getLsbD 0)) ∧
  (∀ (i : Instr) (s : State), s.seq = [] →
    (i = .leftToRight ∨ i = .rightToLeft ∨ i = .autoscrollOn ∨ i = .autoscrollOff) →
    (s.issue i).out = s.out ++ commandTrace s.cfg s.bl (0x04 ||| (s.issue i).entry.setWidth 8) s.cfg.tSettle) ∧
  ∀ (i : Instr) (s : State), s.seq = [] →
    i ≠ .leftToRight → i ≠ .rightToLeft → i ≠ .autoscrollOn → i ≠ .autoscrollOff →
    (s.issue i).entry = if i = .init then s.entry ||| 0b10 else s.entry

/-- The cumulative property of DISP (R187): each command of the family changes only the bit it names and sends `0x08` ORed
with all three; from `0b100`, BLINK_ON, CURSOR_ON, CURSOR_OFF, BLINK_OFF send 0x0D, 0x0F, 0x0D, 0x0C; and no other
command but INIT, which sets DON, writes DISP. -/
def Obligations.DisplayControlIsCumulative : Prop :=
  (∀ s : State, s.seq = [] → s.disp = 0b100 →
    (s.issueAll [.blinkOn, .cursorOn, .cursorOff, .blinkOff]).out =
      s.out ++ commandTrace s.cfg s.bl 0x0D s.cfg.tSettle ++ commandTrace s.cfg s.bl 0x0F s.cfg.tSettle ++
        commandTrace s.cfg s.bl 0x0D s.cfg.tSettle ++ commandTrace s.cfg s.bl 0x0C s.cfg.tSettle) ∧
  (∀ s : State, s.seq = [] →
    ∀ ikv ∈ [(Instr.displayOn, 2, true), (.displayOff, 2, false), (.cursorOn, 1, true), (.cursorOff, 1, false),
             (.blinkOn, 0, true), (.blinkOff, 0, false)],
      (s.issue ikv.1).out =
        s.out ++ commandTrace s.cfg s.bl (0x08 ||| (s.issue ikv.1).disp.setWidth 8) s.cfg.tSettle ∧
      ∀ j, j < 3 → (s.issue ikv.1).disp.getLsbD j = if j = ikv.2.1 then ikv.2.2 else s.disp.getLsbD j) ∧
  ∀ (i : Instr) (s : State), s.seq = [] →
    i ≠ .displayOn → i ≠ .displayOff → i ≠ .cursorOn → i ≠ .cursorOff → i ≠ .blinkOn → i ≠ .blinkOff →
    (s.issue i).disp = if i = .init then s.disp ||| 0b100 else s.disp

/-! ### Counts and waits -/

/-- Micro-step counts (R38), `g = 1` when `T_GAP > 0` and else 0, the other durations nonzero. -/
def Obligations.MicroStepCounts : Prop :=
  ∀ (i : Instr) (s t : State), s.seq = [] → s.cfg.waitsPresent = true → exec i s = .next t →
    t.seq.length =
      let g := if s.cfg.tGap = 0 then 0 else 1
      match i with
      | .init => 44 + 4 * g
      | .defineGlyph _ _ => 70 + 10 * g
      | .backlightOn | .backlightOff => 1
      | _ => 7 + g

/-- `Tx` events, `Wait` events and the sum of waits of each command, and that sum with the default durations (R280). -/
def Obligations.TransmissionCountsAndWaitSums : Prop :=
  ∀ (i : Instr) (s t : State), s.seq = [] → exec i s = .next t →
    let e := s.cfg.tEn.toNat
    let g := s.cfg.tGap.toNat
    let z := s.cfg.tSettle.toNat
    let l := s.cfg.tLong.toNat
    let w := s.cfg.tWrite.toNat
    let row : Nat × Nat × Nat × Nat :=
      match i with
      | .init => (24, 20, 12 * e + 4 * g + s.cfg.tInit1.toNat + s.cfg.tInit2.toNat + s.cfg.tInit3.toNat + 4 * z + l,
          6147)
      | .clear | .home => (4, 3, 2 * e + g + l, 1602)
      | .writeChar _ => (4, 3, 2 * e + g + w, 39)
      | .defineGlyph _ _ => (40, 30, 20 * e + 10 * g + 2 * z + 8 * w, 390)
      | .backlightOn | .backlightOff => (1, 0, 0, 0)
      | _ => (4, 3, 2 * e + g + z, 39)
    (txEvents t.pending).length = row.1 ∧
    (s.cfg.waitsPresent = true → s.cfg.tGap = 0 → (waitEvents t.pending).length = row.2.1) ∧
    waitSum t.pending = row.2.2.1 ∧
    (s.cfg = Cfg.default → waitSum t.pending = row.2.2.2)

/-- The settle wait of CLEAR and HOME is their last event, `Wait(T_LONG)`, and is longer than a wait that ends any other
command, under the constraint of R8 on the durations (R162). A settle time of 0 leaves no event. -/
def Obligations.ClearAndHomeSettleLongest : Prop :=
  ∀ (s : State), s.seq = [] → s.cfg.longSettles = true →
    (∀ i, i = .clear ∨ i = .home → ∃ t, exec i s = .next t ∧ t.pending.getLast? = some (.wait s.cfg.tLong) ∧
      (waitEvents t.pending).getLast? = some s.cfg.tLong) ∧
    ∀ i t n, exec i s = .next t → i ≠ .clear → i ≠ .home → t.pending.getLast? = some (.wait n) → n < s.cfg.tLong

/-! ### Geometry -/

/-- The effective geometry (R5, R30): clamped counts and the maxima derived from them, with their ranges. -/
def Obligations.GeometryIsClamped : Prop :=
  ∀ c : Cfg,
    (cols c).toNat = max 1 c.colsCfg.toNat ∧ (rows c).toNat = min 4 (max 1 c.rowsCfg.toNat) ∧
    (colMax c).toNat = (cols c).toNat - 1 ∧ (rowMax c).toNat = (rows c).toNat - 1 ∧
    (colMax c).toNat ≤ 254 ∧ (rowMax c).toNat ≤ 3

/-- `CursorAddr` (R203): the row offset of the clamped row plus the clamped column, modulo 128; which geometries are well
formed; and for those, no reduction occurs and the address lies in the row's window. -/
def Obligations.CursorAddressStaysInItsRow : Prop :=
  ∀ (c : Cfg) (col row : Byte),
    (cursorAddr c col row).toNat =
      ((rowOff (BitVec.ofNat 2 (min row.toNat (rowMax c).toNat))).toNat + min col.toNat (colMax c).toNat) % 128 ∧
    (geometryWf c = true ↔
      (colMax c).toNat ≤ (if rowMax c = 3 then 43 else if rowMax c = 0 then 127 else 63)) ∧
    (geometryWf c = true →
      (rowOff (BitVec.ofNat 2 (min row.toNat (rowMax c).toNat))).toNat ≤ (cursorAddr c col row).toNat ∧
      (cursorAddr c col row).toNat ≤
        (rowOff (BitVec.ofNat 2 (min row.toNat (rowMax c).toNat))).toNat + (colMax c).toNat)

/-! ### What the controller receives -/

/-- Every full transmission latches its two nibbles, high first, and their join is the byte sent (R83). -/
def Obligations.LatchedNibblesRejoinTheByte : Prop :=
  ∀ (c : Cfg) (r bl : Line) (b : Byte) (n : Units),
    latched (instrTrace c r bl b n) = [(r, b.extractLsb' 4 4), (r, b.extractLsb' 0 4)] ∧
    joinNibbles (latched (instrTrace c r bl b n)) = [(r, b)]

/-- A backlight byte latches nothing after a trace that ends with enable low (R82, R215 (b), R216 (c)). -/
def Obligations.BacklightLatchesNothing : Prop :=
  ∀ (i : Instr) (s : State), s.seq = [] → i = .backlightOn ∨ i = .backlightOff →
    (∀ a v, (txEvents s.out).getLast? = some (a, v) → enBit v = 0) →
    latched (s.issue i).out = latched s.out

/-- The instruction bytes a command sends with RS = 0 are those of R92 to R99 and no other (R101); INIT's four half
transmissions come first and are not joined. -/
def Obligations.OnlyListedInstructionBytesAreSent : Prop :=
  ∀ (i : Instr) (s : State), s.seq = [] → ∃ t, exec i s = .next t ∧
    ∀ b : Byte, (0, b) ∈ joinNibbles ((latched t.pending).drop (if i = .init then 4 else 0)) →
      b = 0x01 ∨ b = 0x02 ∨ (0x04 ≤ b ∧ b ≤ 0x0F) ∨ b = 0x18 ∨ b = 0x1C ∨ b = 0x28 ∨
        (0x40 ≤ b ∧ b < 0x80 ∧ b &&& 0x07 = 0) ∨ 0x80 ≤ b

/-- INIT issues exactly three high-nibble-only 0x30, one high-nibble-only 0x20 and one full 0x28 before any other
instruction (R152), then the display-control, clear and entry-mode instructions (R150, R151). The bit places of these
bytes are log entry 15. -/
def Obligations.InitLatchesTheHandshakeFirst : Prop :=
  ∀ s : State, s.seq = [] → ∃ t, exec .init s = .next t ∧
    (latched t.pending).take 4 = [(0, 3), (0, 3), (0, 3), (0, 2)] ∧
    joinNibbles ((latched t.pending).drop 4) =
      [(0, 0x28), (0, 0x08 ||| (s.disp ||| 0b100).setWidth 8), (0, 0x01), (0, 0x04 ||| (s.entry ||| 0b10).setWidth 8)]

/-- Whatever was known or unknown of the controller before, once the power-on time has passed (R262) and when the engine's
durations are what the controller needs (R278), after the operation of INIT it is known to be in 4-bit mode with no nibble
pending, its flags are the engine's (R45, R263, R266, R273) and its pointer is in DDRAM (R202 (a)), and it has settled.
It is about the observer of log entries 17 and 27: three primes taking an unknown mode to 8-bit is PRESUMED there, and
which delays suffice is a parameter. -/
def Obligations.ControllerIsKnownAfterInit : Prop :=
  ∀ (need : Needs) (o : Observer) (s : State), s.seq = [] → need.metBy s.cfg → o.awaiting = 0 →
    ∃ t, exec .init s = .next t ∧
      let k := (o.accepted .init).atEnd need t
      k.Ready ∧ k.known.mode = some .four ∧ k.known.high = none ∧ k.known.entry = some t.entry ∧
        k.known.disp = some t.disp ∧ k.known.space = some .ddram

/-- After DEFINE_GLYPH the controller's pointer is back at DDRAM address 0 and its flags are untouched, for an initialised
controller whose delays are kept (R46, R269). It is about the observer of log entries 17 and 27. -/
def Obligations.PointerIsBackInDdramAfterGlyph : Prop :=
  ∀ (need : Needs) (o : Observer) (s : State) (a : Byte) (g : Payload), s.seq = [] → need.metBy s.cfg → o.Ready →
    ∃ t, exec (.defineGlyph a g) s = .next t ∧
      let k := (o.accepted (.defineGlyph a g)).atEnd need t
      k.Ready ∧ k.known.space = some .ddram ∧ k.known.addr = some 0 ∧ k.known.mode = some .four ∧
        k.known.high = none ∧ k.known.entry = o.known.entry ∧ k.known.disp = o.known.disp

/-! ### Reset -/

/-- Reset at any moment (R41): every register of the engine takes its reset value, OUT is empty, the configuration keeps its
value, and reset itself writes nothing on the bus (the `TX` that was already requested is the next statement's). -/
def Obligations.ResetGivesTheResetValues : Prop :=
  ∀ (s : State) (rest : List Input), s.inputs = .reset :: rest → ∃ t, step s = .next t ∧
    t.lat = ⟨0, 0, 0, 0x00⟩ ∧ t.bl = 0 ∧ t.entry = 0b00 ∧ t.disp = 0b000 ∧ t.seq = [] ∧ t.tmr = 0 ∧ t.out = [] ∧
    t.cfg = s.cfg ∧ t.inputs = rest ∧
    (s.txRequest = none → t.bus = s.bus ∧ t.history = s.history)

/-- Reset during an operation (R251): the rest of the operation is abandoned, what has been sent stays sent, and a `TX`
requested and not completed is either the last event or absent; any other reset adds no event. -/
def Obligations.ResetAbandonsTheOperation : Prop :=
  ∀ (s : State) (rest : List Input), s.inputs = .reset :: rest → ∃ t, step s = .next t ∧ t.pending = [] ∧
    ((t.history = s.history ∧ t.bus = s.bus) ∨
      ∃ l v ms, s.seq = ⟨l, .tx v⟩ :: ms ∧ t.history = s.history ++ [.tx s.cfg.addr v] ∧
        t.bus = s.bus.write s.cfg.addr.toNat v)

/-- After INIT from the reset values, for every configuration and backlight state: DISP = 0b100, ENTRY = 0b10, and after
the function-set handshake the controller has received 0x0C, 0x01, 0x06 (R42). -/
def Obligations.InitFromResetGivesTheDefaultDisplay : Prop :=
  ∀ s : State, s.seq = [] → s.entry = 0 → s.disp = 0 → s.out = [] →
    (s.issue .init).disp = 0b100 ∧ (s.issue .init).entry = 0b10 ∧
    joinNibbles ((latched (s.issue .init).out).drop 4) = [(0, 0x28), (0, 0x0C), (0, 0x01), (0, 0x06)]

/-! ### The port level -/

/-- Every clock cycle without reset is a stutter, a count of the delay counter, or exactly one event-level step: the
acceptance of the presented word, or the completion of the micro-step at the head of SEQ (R88). -/
def Obligations.EveryCycleIsAStutterOrAStep : Prop :=
  ∀ (p : PortIn) (s t : State), p.rst = false → cycle p s = .next t →
    t = s ∨
    (s.seq ≠ [] ∧ s.tmr ≠ 0 ∧ p.unitTick = true ∧ t = { s with tmr := s.tmr - 1 }) ∨
    (s.seq = [] ∧ p.cmdValid = true ∧
      ∀ rest, step { s with inputs := .command p.cmdWord :: rest } = .next { t with inputs := rest }) ∨
    (s.seq ≠ [] ∧ step { s with inputs := [] } = .next { t with inputs := [] })

/-- A run of clock cycles without reset is a run of the event-level machine on some of the presented words, in order: same
OUT, same SEQ, same registers, same latches, same bus (R88). Only the delay counter may differ. -/
def Obligations.CyclesRefineTheEventLevel : Prop :=
  ∀ (ps : List PortIn) (s t : State), (∀ p ∈ ps, p.rst = false) → cycles ps s = .next t →
    ∃ (ws : List CmdWord) (k : Nat) (u : State),
      ws.Sublist ((ps.filter PortIn.cmdValid).map PortIn.cmdWord) ∧
      Host.Core.run Sys2Proof.core k { s with inputs := ws.map Input.command } = .next u ∧ u.inputs = [] ∧
      { t with tmr := 0, inputs := [] } = { u with tmr := 0 }

/-- A `WAIT(n)` at the port level ends at its strobe number `n + 1` and not before, whatever the other ports carry (R34,
R87). -/
def Obligations.WaitCountsItsStrobes : Prop :=
  ∀ (ps : List PortIn) (s : State) (l : Latches) (n : Units) (ms : List Micro),
    s.seq = ⟨l, .wait n⟩ :: ms → s.tmr = n → (∀ p ∈ ps, p.rst = false) →
    ((ps.filter PortIn.unitTick).length ≤ n.toNat →
      ∃ t, cycles ps s = .next t ∧ t.seq = s.seq ∧ t.out = s.out ∧
        t.tmr.toNat + (ps.filter PortIn.unitTick).length = n.toNat) ∧
    ∀ p : PortIn, p.rst = false → p.unitTick = true → (ps.filter PortIn.unitTick).length = n.toNat →
      ∃ t, cycles (ps ++ [p]) s = .next t ∧ t.seq = ms ∧ t.out = s.out ++ [.wait n]

/-- A `TX(v)` requests its transaction with `tx_addr = ADDR` and `tx_data = v`, holds all three unchanged for any number of
cycles without `tx_ready`; the cycle in which `tx_ready` is high completes it, counts its event, and the expander's lines
then show `v` (R86). -/
def Obligations.TransactionIsHeldUntilReady : Prop :=
  ∀ (ps : List PortIn) (s : State) (l : Latches) (v : Byte) (ms : List Micro),
    s.seq = ⟨l, .tx v⟩ :: ms → (∀ p ∈ ps, p.rst = false ∧ p.txReady = false) →
    cycles ps s = .next s ∧
    ∀ p : PortIn, p.rst = false →
      (portOut p s).txValid = true ∧ (portOut p s).txAddr = s.cfg.addr ∧ (portOut p s).txData = some v ∧
      (p.txReady = true → ∃ t, cycles (ps ++ [p]) s = .next t ∧ t.seq = ms ∧ t.out = s.out ++ [.tx s.cfg.addr v] ∧
        t.expanderLines = some v)

/-- `cmd_ready` is high exactly when SEQ is idle and `rst` is low, and the word is accepted exactly in a cycle where it and
`cmd_valid` are high; a host that holds `cmd_valid` is kept waiting (R85). -/
def Obligations.CommandTransferNeedsReadyAndValid : Prop :=
  ∀ (p : PortIn) (s : State),
    ((portOut p s).cmdReady = true ↔ s.seq = [] ∧ p.rst = false) ∧
    ((portOut p s).cmdReady = true → p.cmdValid = true → ∀ i, decode p.cmdWord = .ok i → cycle p s = exec i s) ∧
    ((portOut p s).cmdReady = true → p.cmdValid = false → cycle p s = .next s) ∧
    ((portOut p s).busy = true → ∀ (w : CmdWord) (v : Bool), cycle { p with cmdWord := w, cmdValid := v } s = cycle p s)

/-- Reset in a cycle wins over everything: no command is accepted, a `tx_ready` is ignored, the outputs are low, and the
state is the reset state (R225, R250). -/
def Obligations.ResetWinsInItsCycle : Prop :=
  ∀ (p : PortIn) (s : State), p.rst = true →
    (portOut p s).cmdReady = false ∧ (portOut p s).busy = false ∧ (portOut p s).txValid = false ∧
    cycle p s = .next s.takeReset ∧
    s.takeReset.lat = ⟨0, 0, 0, 0x00⟩ ∧ s.takeReset.bl = 0 ∧ s.takeReset.entry = 0b00 ∧ s.takeReset.disp = 0b000 ∧
    s.takeReset.seq = [] ∧ s.takeReset.tmr = 0 ∧ s.takeReset.out = []

/-! ### Text and boot -/

/-- `PRINT` (R112): one WRITE_CHAR per byte, in order, so OUT grows by the data transmissions of the bytes; the empty text
adds nothing; the flag registers and the backlight are kept; and a line `PRINT "text"` of ASCII characters is that list of
commands. The line clause rests on the model's log entry 21: a space ends the name, a `;` inside the text starts no comment
(R108 says only that `;` starts one), and the text has no escapes. -/
def Obligations.PrintWritesEachByteInOrder : Prop :=
  (∀ (text : List Byte) (s : State), s.seq = [] →
    (s.issueAll (expandPrint text)).out = s.out ++ text.flatMap (dataTrace s.cfg s.bl) ∧
    (s.issueAll (expandPrint text)).regs = s.regs ∧ (s.issueAll (expandPrint text)).seq = []) ∧
  ∀ text : List Char, (∀ c ∈ text, c.toNat < 128 ∧ c ≠ '"') →
    assemble [("PRINT \"".toList ++ text ++ ['"'])] =
      .ok (text.map (fun c => encode (.writeChar (BitVec.ofNat 8 c.toNat))))

/-- Each second name assembles to the same word as its mnemonic, on every operand text, and to the same error where that is
no operand list; without operands each name of a command that has none assembles to its opcode's word; the lines of R109
do under either name; and the names are those of 20 different opcodes (R104, R108 to R110). That a space ends a name is log
entry 21. -/
def Obligations.SecondNamesAssembleAlike : Prop :=
  (∀ e ∈ nameTable,
    (∀ operands : List Char,
      assemble [e.2.2.toList ++ ' ' :: operands] = assemble [e.2.1.toList ++ ' ' :: operands]) ∧
    (e.1 ≠ 0x10 → e.1 ≠ 0x11 → e.1 ≠ 0x12 → ∀ name ∈ [e.2.1, e.2.2],
      assemble [name.toList] = .ok [e.1.setWidth 88 <<< 80])) ∧
  (∀ line ∈ ["SET_CURSOR 5, 1", "setCursor 5, 1"], assemble [line.toList] = .ok [0x1105010000000000000000]) ∧
  (∀ line ∈ ["WRITE_CHAR 'A'", "writeCharacter 'A'"], assemble [line.toList] = .ok [0x1241000000000000000000]) ∧
  (∀ name ∈ ["DEFINE_GLYPH ", "defineGlyph "],
    assemble [name.toList ++ "3, 0x00, 0x0A, 0x1F, 0x1F, 0x0E, 0x04, 0x00, 0x00".toList] =
      .ok [0x1003000000040E1F1F0A00]) ∧
  (nameTable.map (fun e => e.1)).Nodup ∧ nameTable.length = 20

/-- The boot requirements (R260 to R262): in a disciplined history every command, a backlight command among them, comes after
a reset of the engine; INIT comes no earlier than `powerOn` after power-up; and every other command that sends an
instruction comes after such an INIT, with no power-up and no reset that interrupts an operation in between. Log entry
24. -/
def Obligations.InstructionsComeAfterInit : Prop :=
  ∀ (powerOn : Nat) (pre post : List HostAct) (i : Instr), bootOk powerOn .start (pre ++ .issue i :: post) = true →
    let sincePower (acts : List HostAct) : Nat :=
      ((acts.reverse.takeWhile (· ≠ .powerUp)).map (fun a => match a with | .elapse n => n | _ => 0)).sum
    (∃ interrupts, HostAct.reset interrupts ∈ pre) ∧
    (i = .init → powerOn ≤ sincePower pre) ∧
    (i.sendsInstruction = true → i ≠ .init →
      ∃ before after, pre = before ++ .issue .init :: after ∧ HostAct.powerUp ∉ after ∧ HostAct.reset true ∉ after ∧
        (∃ interrupts, HostAct.reset interrupts ∈ before) ∧ powerOn ≤ sincePower before)

/-! ### The watched controller -/

/-- Nothing is known of the controller until an INIT has completed (R272, U2), and an INIT cut short by a reset completes
nothing (R251, R278): a step that accepts no INIT leaves an unknown controller unknown; one that accepts an INIT, and one
in which a reset interrupts an operation, leave nothing known; only a micro-step of a started INIT makes the controller
known; and as long as a byte of the INIT has still to be sent it does not. It is about the observer of log entry 27. -/
def Obligations.ControllerIsUnknownUntilInitCompletes : Prop :=
  (∀ (need : Needs) (o : Observer) (s t : State), step s = .next t →
    let k := o.watch need s.sights
    let begins : Prop := s.seq = [] ∧ ∃ w rest, s.inputs = .command w :: rest ∧ decode w = .ok .init
    (o.stage = .unknown → ¬ begins → k.stage = .unknown) ∧
    (begins → k.stage = .starting) ∧
    (s.seq ≠ [] → (∃ rest, s.inputs = .reset :: rest) → k.stage = .unknown) ∧
    (k.stage = .ready → o.stage = .ready ∨ (o.stage = .starting ∧ s.seq ≠ [] ∧ ∀ rest, s.inputs ≠ .reset :: rest)) ∧
    (k.stage ≠ .ready → k.known = Controller.unknown)) ∧
  ∀ (need : Needs) (o : Observer) (s t : State), s.seq = [] → exec .init s = .next t →
    ∀ sent rest, t.pending = sent ++ rest → txEvents rest ≠ [] →
      ((o.accepted .init).watch need (sent.map Sight.event)).known = Controller.unknown

/-- An initialised controller stays in step with the engine: when the durations are what the controller needs, every step
but a reset keeps it initialised, in 4-bit mode, in phase and settled (R70, R143, R267), and keeps its flags those of the
engine (R28, R273). It is about the observer of log entries 17 and 27. -/
def Obligations.InitialisedControllerStaysInStep : Prop :=
  ∀ (need : Needs) (o : Observer) (s t : State), need.metBy s.cfg → (∀ rest, s.inputs ≠ .reset :: rest) →
    o.InStep need s → step s = .next t → (o.watch need s.sights).InStep need t
end

