-- ==== Sys2Proof/Laws/Decode.lean ====
section
/-! SUPPORT. The fields of a packed command word are the values packed (R102). -/

namespace Sys2Proof

@[simp] theorem opField_packWord (op a b : Byte) (g : Payload) : opField (packWord op a b g) = op := by
  unfold opField packWord
  ext i hi
  simp
  grind

@[simp] theorem aField_packWord (op a b : Byte) (g : Payload) : aField (packWord op a b g) = a := by
  unfold aField packWord
  ext i hi
  simp
  grind

@[simp] theorem bField_packWord (op a b : Byte) (g : Payload) : bField (packWord op a b g) = b := by
  unfold bField packWord
  ext i hi
  simp
  grind

@[simp] theorem gField_packWord (op a b : Byte) (g : Payload) : gField (packWord op a b g) = g := by
  unfold gField packWord
  ext i hi
  simp
  grind

end Sys2Proof
end

