-- ==== Sys2Proof/Laws/Memory.lean ====
section
/-! SUPPORT. The bytes held on the bus: read after write, every other address kept, the canonical form kept. -/

namespace Sys2Proof.Machine

theorem Memory.read_write_same (m : Memory) (a : Nat) (v : Byte) : (m.write a v).read a = some v := by
  induction m with
  | nil => simp [Memory.write, Memory.read]
  | cons c m ih =>
    obtain ⟨b, u⟩ := c
    simp only [Memory.write]
    split
    · simp [Memory.read]
    · split
      · simp [Memory.read]
      · simp [Memory.read, *]

theorem Memory.read_write_other (m : Memory) {a b : Nat} (v : Byte) (h : b ≠ a) :
    (m.write a v).read b = m.read b := by
  induction m with
  | nil => simp [Memory.write, Memory.read, h]
  | cons c m ih =>
    obtain ⟨d, u⟩ := c
    simp only [Memory.write]
    split
    · simp [Memory.read, h]
    · split
      · rename_i hlt heq
        subst heq
        simp [Memory.read, h]
      · simp only [Memory.read]
        split
        · rfl
        · exact ih

theorem Memory.write_write_same (m : Memory) (a : Nat) (v w : Byte) : (m.write a v).write a w = m.write a w := by
  induction m with
  | nil => simp [Memory.write]
  | cons c m ih =>
    obtain ⟨b, u⟩ := c
    simp only [Memory.write]
    split
    · simp [Memory.write]
    · split
      · simp [Memory.write]
      · rename_i h1 h2
        simp [Memory.write, h1, h2, ih]

/-- An entry of the memory after a write is an entry from before or the one written. -/
theorem Memory.mem_write {m : Memory} {a : Nat} {v : Byte} {c : Host.Cell} (h : c ∈ m.write a v) :
    c = (a, v) ∨ c ∈ m := by
  induction m with
  | nil => simpa [Memory.write] using h
  | cons d m ih =>
    obtain ⟨b, u⟩ := d
    simp only [Memory.write] at h
    split at h
    · simpa using h
    · split at h
      · rcases List.mem_cons.1 h with h | h
        · exact .inl h
        · exact .inr (List.mem_cons_of_mem _ h)
      · rcases List.mem_cons.1 h with h | h
        · exact .inr (h ▸ List.mem_cons_self)
        · rcases ih h with h | h
          · exact .inl h
          · exact .inr (List.mem_cons_of_mem _ h)

/-- A store keeps the canonical form. -/
theorem Memory.wf_write {m : Memory} {a : Nat} (v : Byte) (ha : a < 128) (h : m.wf) : (m.write a v).wf := by
  refine ⟨?_, fun c hc => ?_⟩
  · obtain ⟨h, -⟩ := h
    induction m with
    | nil => simp [Memory.write]
    | cons d m ih =>
      obtain ⟨b, u⟩ := d
      obtain ⟨hb, hm⟩ := List.pairwise_cons.1 h
      simp only [Memory.write]
      split
      · rename_i hlt
        refine List.pairwise_cons.2 ⟨fun x hx => ?_, h⟩
        rcases List.mem_cons.1 hx with rfl | hx
        · exact hlt
        · exact hlt.trans (hb x hx)
      · split
        · rename_i heq
          subst heq
          exact List.pairwise_cons.2 ⟨hb, hm⟩
        · rename_i h1 h2
          refine List.pairwise_cons.2 ⟨fun x hx => ?_, ih hm⟩
          rcases Memory.mem_write hx with rfl | hx
          · show b < a
            omega
          · exact hb x hx
  · rcases Memory.mem_write hc with rfl | hc
    · exact ha
    · exact h.2 c hc

/-- What a micro-step stores keeps the canonical form. -/
theorem Act.wf_store {addr : BusAddr} {m : Memory} (x : Act) (h : m.wf) : (x.store addr m).wf := by
  cases x with
  | tx v => exact Memory.wf_write v addr.isLt h
  | wait n => exact h

end Sys2Proof.Machine
end

