-- ==== Sys2Proof/Laws/State.lean ====
section
/-! SUPPORT. One lemma per field for each update of State, true by computation, so that no later proof unfolds a record
update. -/

namespace Sys2Proof.Machine

/-! ### `State.start` -/

@[simp] theorem State.start_cfg (s : State) : s.start.cfg = s.cfg := by unfold State.start; split <;> rfl
@[simp] theorem State.start_bl (s : State) : s.start.bl = s.bl := by unfold State.start; split <;> rfl
@[simp] theorem State.start_entry (s : State) : s.start.entry = s.entry := by unfold State.start; split <;> rfl
@[simp] theorem State.start_disp (s : State) : s.start.disp = s.disp := by unfold State.start; split <;> rfl
@[simp] theorem State.start_seq (s : State) : s.start.seq = s.seq := by unfold State.start; split <;> rfl
@[simp] theorem State.start_out (s : State) : s.start.out = s.out := by unfold State.start; split <;> rfl
@[simp] theorem State.start_bus (s : State) : s.start.bus = s.bus := by unfold State.start; split <;> rfl
@[simp] theorem State.start_inputs (s : State) : s.start.inputs = s.inputs := by unfold State.start; split <;> rfl
@[simp] theorem State.start_past (s : State) : s.start.past = s.past := by unfold State.start; split <;> rfl
@[simp] theorem State.start_draws (s : State) : s.start.draws = s.draws := by unfold State.start; split <;> rfl

theorem State.start_nil {s : State} (h : s.seq = []) : s.start = { s with tmr := 0 } := by
  simp [State.start, h]

theorem State.start_cons {s : State} {m : Micro} {ms : List Micro} (h : s.seq = m :: ms) :
    s.start = { s with lat := m.lat, tmr := m.act.load } := by
  simp [State.start, h]

/-! ### `State.perform` -/

@[simp] theorem State.perform_cfg (s : State) : s.perform.cfg = s.cfg := by unfold State.perform; split <;> simp
@[simp] theorem State.perform_bl (s : State) : s.perform.bl = s.bl := by unfold State.perform; split <;> simp
@[simp] theorem State.perform_entry (s : State) : s.perform.entry = s.entry := by unfold State.perform; split <;> simp
@[simp] theorem State.perform_disp (s : State) : s.perform.disp = s.disp := by unfold State.perform; split <;> simp
@[simp] theorem State.perform_inputs (s : State) : s.perform.inputs = s.inputs := by
  unfold State.perform; split <;> simp
@[simp] theorem State.perform_past (s : State) : s.perform.past = s.past := by unfold State.perform; split <;> simp
@[simp] theorem State.perform_draws (s : State) : s.perform.draws = s.draws := by unfold State.perform; split <;> simp

theorem State.perform_nil {s : State} (h : s.seq = []) : s.perform = s := by
  simp [State.perform, h]

theorem State.perform_cons {s : State} {m : Micro} {ms : List Micro} (h : s.seq = m :: ms) :
    s.perform = State.start { s with
      seq := ms, out := s.out ++ [m.act.event s.cfg.addr], bus := m.act.store s.cfg.addr s.bus } := by
  simp [State.perform, h]

@[simp] theorem State.perform_seq (s : State) : s.perform.seq = s.seq.tail := by
  unfold State.perform; split <;> simp_all

/-! ### `State.load` -/

@[simp] theorem State.load_cfg (s : State) (p : Build) : (s.load p).cfg = s.cfg := by simp [State.load]
@[simp] theorem State.load_bl (s : State) (p : Build) : (s.load p).bl = p.bl := by simp [State.load]
@[simp] theorem State.load_entry (s : State) (p : Build) : (s.load p).entry = p.entry := by simp [State.load]
@[simp] theorem State.load_disp (s : State) (p : Build) : (s.load p).disp = p.disp := by simp [State.load]
@[simp] theorem State.load_seq (s : State) (p : Build) : (s.load p).seq = p.steps := by simp [State.load]
@[simp] theorem State.load_out (s : State) (p : Build) : (s.load p).out = s.out := by simp [State.load]
@[simp] theorem State.load_bus (s : State) (p : Build) : (s.load p).bus = s.bus := by simp [State.load]
@[simp] theorem State.load_inputs (s : State) (p : Build) : (s.load p).inputs = s.inputs := by simp [State.load]
@[simp] theorem State.load_past (s : State) (p : Build) : (s.load p).past = s.past := by simp [State.load]
@[simp] theorem State.load_draws (s : State) (p : Build) : (s.load p).draws = s.draws := by simp [State.load]

/-! ### `State.toBuild` -/

@[simp] theorem State.toBuild_cfg (s : State) : s.toBuild.cfg = s.cfg := rfl
@[simp] theorem State.toBuild_bl (s : State) : s.toBuild.bl = s.bl := rfl
@[simp] theorem State.toBuild_entry (s : State) : s.toBuild.entry = s.entry := rfl
@[simp] theorem State.toBuild_disp (s : State) : s.toBuild.disp = s.disp := rfl
@[simp] theorem State.toBuild_lat (s : State) : s.toBuild.lat = s.lat := rfl
@[simp] theorem State.toBuild_steps (s : State) : s.toBuild.steps = [] := rfl

/-! ### `State.takeReset` -/

@[simp] theorem State.takeReset_cfg (s : State) : s.takeReset.cfg = s.cfg := rfl
@[simp] theorem State.takeReset_lat (s : State) : s.takeReset.lat = Latches.reset := rfl
@[simp] theorem State.takeReset_bl (s : State) : s.takeReset.bl = 0 := rfl
@[simp] theorem State.takeReset_entry (s : State) : s.takeReset.entry = 0 := rfl
@[simp] theorem State.takeReset_disp (s : State) : s.takeReset.disp = 0 := rfl
@[simp] theorem State.takeReset_seq (s : State) : s.takeReset.seq = [] := rfl
@[simp] theorem State.takeReset_tmr (s : State) : s.takeReset.tmr = 0 := rfl
@[simp] theorem State.takeReset_out (s : State) : s.takeReset.out = [] := rfl
@[simp] theorem State.takeReset_inputs (s : State) : s.takeReset.inputs = s.inputs := rfl
@[simp] theorem State.takeReset_past (s : State) :
    s.takeReset.past = s.past ++ s.out ++ s.landed.map (Act.event s.cfg.addr) := rfl
@[simp] theorem State.takeReset_bus (s : State) :
    s.takeReset.bus = s.landed.foldl (fun m a => a.store s.cfg.addr m) s.bus := rfl
@[simp] theorem State.takeReset_draws (s : State) : s.takeReset.draws = s.draws + 1 := rfl

/-! ### Idle -/

theorem State.idle_iff {s : State} : s.idle = true ↔ s.seq = [] := by simp [State.idle]

theorem State.not_idle_iff {s : State} : s.idle = false ↔ s.seq ≠ [] := by
  simp [State.idle]

end Sys2Proof.Machine
end

