-- ==== Sys2Proof/Laws/Ops.lean ====
section
/-! SUPPORT. What each shared operation does, once: the frames (R120 to R122, R136), the procedures of the nibble sequencer
(R130 to R135), the run of an operation to its end (R37), and acceptance (R36, R226). -/

namespace Sys2Proof.Machine

/-! ### Frames -/

theorem frame_hi_raised (rs bl : Line) (d b : Byte) :
    frame ⟨rs, 0#1, 1#1, d⟩ bl (hiNibble b) = (b &&& 0xF0#8) ||| staticBits rs bl ||| 0x04#8 := by
  unfold frame hiNibble staticBits
  ext i hi
  simp
  interval_cases i <;> simp

theorem frame_hi_low (rs bl : Line) (d b : Byte) :
    frame ⟨rs, 0#1, 0#1, d⟩ bl (hiNibble b) = (b &&& 0xF0#8) ||| staticBits rs bl := by
  unfold frame hiNibble staticBits
  ext i hi
  simp
  interval_cases i <;> simp

theorem frame_lo_raised (rs bl : Line) (d b : Byte) :
    frame ⟨rs, 0#1, 1#1, d⟩ bl (loNibble b) = ((b <<< 4) &&& 0xF0#8) ||| staticBits rs bl ||| 0x04#8 := by
  unfold frame loNibble staticBits
  ext i hi
  simp
  interval_cases i <;> simp

theorem frame_lo_low (rs bl : Line) (d b : Byte) :
    frame ⟨rs, 0#1, 0#1, d⟩ bl (loNibble b) = ((b <<< 4) &&& 0xF0#8) ||| staticBits rs bl := by
  unfold frame loNibble staticBits
  ext i hi
  simp
  interval_cases i <;> simp

/-- Bit 1 of a frame is RW (R90). -/
theorem rwBit_frame (l : Latches) (bl : Line) (nib : Nibble) : rwBit (frame l bl nib) = l.rw := by
  unfold rwBit frame
  ext i hi
  obtain rfl : i = 0 := by omega
  simp

/-- Bit 2 of a frame is EN (R90). -/
theorem enBit_frame (l : Latches) (bl : Line) (nib : Nibble) : enBit (frame l bl nib) = l.en := by
  unfold enBit frame
  ext i hi
  obtain rfl : i = 0 := by omega
  simp

/-! ### An operation being worked out -/

/-- The events of the micro-steps so far. -/
def Build.events (p : Build) : List Event := p.steps.map (fun m => m.act.event p.cfg.addr)

/-- The latches stand as the last micro-step has them. -/
def Build.Settled (p : Build) : Prop := p.steps.getLast?.map Micro.lat = some p.lat

/-- Every micro-step so far is sound. -/
def Build.Sound (p : Build) : Prop := ∀ m ∈ p.steps, m.sound

@[simp] theorem Build.events_setRs (v : Line) (p : Build) : (p.setRs v).events = p.events := rfl
@[simp] theorem Build.events_setRw (v : Line) (p : Build) : (p.setRw v).events = p.events := rfl
@[simp] theorem Build.events_setEn (v : Line) (p : Build) : (p.setEn v).events = p.events := rfl
@[simp] theorem Build.events_setData (b : Byte) (p : Build) : (p.setData b).events = p.events := rfl
@[simp] theorem Build.events_setBl (v : Line) (p : Build) : (p.setBl v).events = p.events := rfl

@[simp] theorem Build.cfg_setRs (v : Line) (p : Build) : (p.setRs v).cfg = p.cfg := rfl
@[simp] theorem Build.cfg_setRw (v : Line) (p : Build) : (p.setRw v).cfg = p.cfg := rfl
@[simp] theorem Build.cfg_setEn (v : Line) (p : Build) : (p.setEn v).cfg = p.cfg := rfl
@[simp] theorem Build.cfg_setData (b : Byte) (p : Build) : (p.setData b).cfg = p.cfg := rfl
@[simp] theorem Build.cfg_setBl (v : Line) (p : Build) : (p.setBl v).cfg = p.cfg := rfl
@[simp] theorem Build.cfg_tx (v : Byte) (p : Build) : (p.tx v).cfg = p.cfg := rfl
@[simp] theorem Build.cfg_txFrame (n : Nibble) (p : Build) : (p.txFrame n).cfg = p.cfg := rfl
@[simp] theorem Build.cfg_wait (n : Units) (p : Build) : (p.wait n).cfg = p.cfg := by unfold Build.wait; split <;> rfl

@[simp] theorem Build.bl_setRs (v : Line) (p : Build) : (p.setRs v).bl = p.bl := rfl
@[simp] theorem Build.bl_setRw (v : Line) (p : Build) : (p.setRw v).bl = p.bl := rfl
@[simp] theorem Build.bl_setEn (v : Line) (p : Build) : (p.setEn v).bl = p.bl := rfl
@[simp] theorem Build.bl_setData (b : Byte) (p : Build) : (p.setData b).bl = p.bl := rfl
@[simp] theorem Build.bl_setBl (v : Line) (p : Build) : (p.setBl v).bl = v := rfl
@[simp] theorem Build.bl_tx (v : Byte) (p : Build) : (p.tx v).bl = p.bl := rfl
@[simp] theorem Build.bl_txFrame (n : Nibble) (p : Build) : (p.txFrame n).bl = p.bl := rfl
@[simp] theorem Build.bl_wait (n : Units) (p : Build) : (p.wait n).bl = p.bl := by unfold Build.wait; split <;> rfl

@[simp] theorem Build.entry_setRs (v : Line) (p : Build) : (p.setRs v).entry = p.entry := rfl
@[simp] theorem Build.entry_setRw (v : Line) (p : Build) : (p.setRw v).entry = p.entry := rfl
@[simp] theorem Build.entry_setEn (v : Line) (p : Build) : (p.setEn v).entry = p.entry := rfl
@[simp] theorem Build.entry_setData (b : Byte) (p : Build) : (p.setData b).entry = p.entry := rfl
@[simp] theorem Build.entry_setBl (v : Line) (p : Build) : (p.setBl v).entry = p.entry := rfl
@[simp] theorem Build.entry_tx (v : Byte) (p : Build) : (p.tx v).entry = p.entry := rfl
@[simp] theorem Build.entry_txFrame (n : Nibble) (p : Build) : (p.txFrame n).entry = p.entry := rfl
@[simp] theorem Build.entry_wait (n : Units) (p : Build) : (p.wait n).entry = p.entry := by
  unfold Build.wait; split <;> rfl

@[simp] theorem Build.disp_setRs (v : Line) (p : Build) : (p.setRs v).disp = p.disp := rfl
@[simp] theorem Build.disp_setRw (v : Line) (p : Build) : (p.setRw v).disp = p.disp := rfl
@[simp] theorem Build.disp_setEn (v : Line) (p : Build) : (p.setEn v).disp = p.disp := rfl
@[simp] theorem Build.disp_setData (b : Byte) (p : Build) : (p.setData b).disp = p.disp := rfl
@[simp] theorem Build.disp_setBl (v : Line) (p : Build) : (p.setBl v).disp = p.disp := rfl
@[simp] theorem Build.disp_tx (v : Byte) (p : Build) : (p.tx v).disp = p.disp := rfl
@[simp] theorem Build.disp_txFrame (n : Nibble) (p : Build) : (p.txFrame n).disp = p.disp := rfl
@[simp] theorem Build.disp_wait (n : Units) (p : Build) : (p.wait n).disp = p.disp := by
  unfold Build.wait; split <;> rfl

@[simp] theorem Build.lat_setRs (v : Line) (p : Build) : (p.setRs v).lat = { p.lat with rs := v } := rfl
@[simp] theorem Build.lat_setRw (v : Line) (p : Build) : (p.setRw v).lat = { p.lat with rw := v } := rfl
@[simp] theorem Build.lat_setEn (v : Line) (p : Build) : (p.setEn v).lat = { p.lat with en := v } := rfl
@[simp] theorem Build.lat_setData (b : Byte) (p : Build) : (p.setData b).lat = { p.lat with data := b } := rfl
@[simp] theorem Build.lat_setBl (v : Line) (p : Build) : (p.setBl v).lat = p.lat := rfl
@[simp] theorem Build.lat_tx (v : Byte) (p : Build) : (p.tx v).lat = p.lat := rfl
@[simp] theorem Build.lat_txFrame (n : Nibble) (p : Build) : (p.txFrame n).lat = p.lat := rfl
@[simp] theorem Build.lat_wait (n : Units) (p : Build) : (p.wait n).lat = p.lat := by unfold Build.wait; split <;> rfl

@[simp] theorem Build.events_tx (v : Byte) (p : Build) : (p.tx v).events = p.events ++ [.tx p.cfg.addr v] := by
  simp [Build.events, Build.tx, Act.event]

@[simp] theorem Build.events_txFrame (n : Nibble) (p : Build) :
    (p.txFrame n).events = p.events ++ [.tx p.cfg.addr (frame p.lat p.bl n)] := by
  simp [Build.txFrame]

theorem Build.events_wait (n : Units) (p : Build) : (p.wait n).events = p.events ++ waitTrace n := by
  unfold Build.wait waitTrace
  split
  · simp
  · simp [Build.events, Act.event]

/-! ### `PulseNibble` (R130) -/

@[simp] theorem Build.cfg_pulseNibble (n : Nibble) (p : Build) : (p.pulseNibble n).cfg = p.cfg := by
  simp [Build.pulseNibble]
@[simp] theorem Build.bl_pulseNibble (n : Nibble) (p : Build) : (p.pulseNibble n).bl = p.bl := by
  simp [Build.pulseNibble]
@[simp] theorem Build.entry_pulseNibble (n : Nibble) (p : Build) : (p.pulseNibble n).entry = p.entry := by
  simp [Build.pulseNibble]
@[simp] theorem Build.disp_pulseNibble (n : Nibble) (p : Build) : (p.pulseNibble n).disp = p.disp := by
  simp [Build.pulseNibble]
@[simp] theorem Build.lat_pulseNibble (n : Nibble) (p : Build) :
    (p.pulseNibble n).lat = { p.lat with en := 0 } := by
  simp [Build.pulseNibble]

theorem Build.events_pulseNibble (n : Nibble) (p : Build) :
    (p.pulseNibble n).events =
      p.events ++ [.tx p.cfg.addr (frame { p.lat with en := 1 } p.bl n)] ++ waitTrace p.cfg.tEn ++
        [.tx p.cfg.addr (frame { p.lat with en := 0 } p.bl n)] := by
  simp [Build.pulseNibble, Build.events_wait]

theorem Build.settled_tx (v : Byte) (p : Build) : (p.tx v).Settled := by
  simp [Build.Settled, Build.tx]

theorem Build.settled_wait (n : Units) {p : Build} (h : p.Settled) : (p.wait n).Settled := by
  unfold Build.wait
  split
  · exact h
  · simp [Build.Settled]

theorem Build.settled_pulseNibble (n : Nibble) (p : Build) : (p.pulseNibble n).Settled :=
  Build.settled_tx _ _

theorem Build.sound_tx {v : Byte} {p : Build} (h : p.Sound) (hrw : p.lat.rw = 0) (hv : rwBit v = 0) :
    (p.tx v).Sound := by
  intro m hm
  rcases List.mem_append.1 hm with hm | hm
  · exact h m hm
  · obtain rfl := List.mem_singleton.1 hm
    exact ⟨hrw, hv⟩

theorem Build.sound_wait {n : Units} {p : Build} (h : p.Sound) (hrw : p.lat.rw = 0) : (p.wait n).Sound := by
  unfold Build.wait
  split
  · exact h
  · intro m hm
    rcases List.mem_append.1 hm with hm | hm
    · exact h m hm
    · obtain rfl := List.mem_singleton.1 hm
      exact ⟨hrw, ‹_›⟩

theorem Build.sound_txFrame {n : Nibble} {p : Build} (h : p.Sound) (hrw : p.lat.rw = 0) : (p.txFrame n).Sound :=
  Build.sound_tx h hrw ((rwBit_frame _ _ _).trans hrw)

theorem Build.sound_setRs {v : Line} {p : Build} (h : p.Sound) : (p.setRs v).Sound := h
theorem Build.sound_setRw {v : Line} {p : Build} (h : p.Sound) : (p.setRw v).Sound := h
theorem Build.sound_setEn {v : Line} {p : Build} (h : p.Sound) : (p.setEn v).Sound := h
theorem Build.sound_setData {v : Byte} {p : Build} (h : p.Sound) : (p.setData v).Sound := h

theorem Build.sound_pulseNibble {n : Nibble} {p : Build} (h : p.Sound) (hrw : p.lat.rw = 0) :
    (p.pulseNibble n).Sound := by
  refine Build.sound_txFrame ?_ (by simpa using hrw)
  refine Build.sound_setEn (Build.sound_wait ?_ (by simpa using hrw))
  exact Build.sound_txFrame (Build.sound_setEn h) (by simpa using hrw)

/-! ### `SendHalf` with its wait (R132, R151) -/

@[simp] theorem Build.cfg_sendHalf (b : Byte) (p : Build) : (p.sendHalf b).cfg = p.cfg := by simp [Build.sendHalf]
@[simp] theorem Build.bl_sendHalf (b : Byte) (p : Build) : (p.sendHalf b).bl = p.bl := by simp [Build.sendHalf]
@[simp] theorem Build.entry_sendHalf (b : Byte) (p : Build) : (p.sendHalf b).entry = p.entry := by
  simp [Build.sendHalf]
@[simp] theorem Build.disp_sendHalf (b : Byte) (p : Build) : (p.sendHalf b).disp = p.disp := by simp [Build.sendHalf]
@[simp] theorem Build.lat_sendHalf (b : Byte) (p : Build) :
    (p.sendHalf b).lat = { p.lat with en := 0, data := b } := by
  simp [Build.sendHalf]

theorem Build.sound_sendHalf {b : Byte} {p : Build} (h : p.Sound) (hrw : p.lat.rw = 0) : (p.sendHalf b).Sound :=
  Build.sound_pulseNibble (Build.sound_setData h) (by simpa using hrw)

/-- A half transmission in command mode, with its wait, adds `halfTrace` (R151). -/
theorem Build.events_sendHalf_wait (b : Byte) (t : Units) (p : Build) (hrs : p.lat.rs = 0) (hrw : p.lat.rw = 0) :
    ((p.sendHalf b).wait t).events = p.events ++ halfTrace p.cfg p.bl b t := by
  simp [Build.events_wait, Build.sendHalf, Build.events_pulseNibble, halfTrace, frame_hi_raised, frame_hi_low, hrs, hrw]

/-! ### `SendInstr` (R131) and its settle wait -/

@[simp] theorem Build.cfg_sendInstr (b : Byte) (p : Build) : (p.sendInstr b).cfg = p.cfg := by simp [Build.sendInstr]
@[simp] theorem Build.bl_sendInstr (b : Byte) (p : Build) : (p.sendInstr b).bl = p.bl := by simp [Build.sendInstr]
@[simp] theorem Build.entry_sendInstr (b : Byte) (p : Build) : (p.sendInstr b).entry = p.entry := by
  simp [Build.sendInstr]
@[simp] theorem Build.disp_sendInstr (b : Byte) (p : Build) : (p.sendInstr b).disp = p.disp := by
  simp [Build.sendInstr]
@[simp] theorem Build.lat_sendInstr (b : Byte) (p : Build) :
    (p.sendInstr b).lat = { p.lat with en := 0, data := b } := by
  simp [Build.sendInstr]

theorem Build.settled_sendInstr (b : Byte) (p : Build) : (p.sendInstr b).Settled := Build.settled_pulseNibble _ _

theorem Build.sound_sendInstr {b : Byte} {p : Build} (h : p.Sound) (hrw : p.lat.rw = 0) : (p.sendInstr b).Sound := by
  refine Build.sound_pulseNibble (Build.sound_wait ?_ (by simpa using hrw)) (by simpa using hrw)
  exact Build.sound_pulseNibble (Build.sound_setData h) (by simpa using hrw)

/-- A full transmission with its settle wait adds `instrTrace` (R136). -/
theorem Build.events_sendInstr_wait (b : Byte) (t : Units) (p : Build) (hrw : p.lat.rw = 0) :
    ((p.sendInstr b).wait t).events = p.events ++ instrTrace p.cfg p.lat.rs p.bl b t := by
  simp [Build.events_wait, Build.sendInstr, Build.events_pulseNibble, instrTrace, frame_hi_raised, frame_hi_low, frame_lo_raised,
    frame_lo_low, hrw]

/-! ### `Command` (R134) and `Data` (R135) -/

@[simp] theorem Build.cfg_command (b : Byte) (t : Units) (p : Build) : (p.command b t).cfg = p.cfg := by
  simp [Build.command]
@[simp] theorem Build.bl_command (b : Byte) (t : Units) (p : Build) : (p.command b t).bl = p.bl := by
  simp [Build.command]
@[simp] theorem Build.entry_command (b : Byte) (t : Units) (p : Build) : (p.command b t).entry = p.entry := by
  simp [Build.command]
@[simp] theorem Build.disp_command (b : Byte) (t : Units) (p : Build) : (p.command b t).disp = p.disp := by
  simp [Build.command]
@[simp] theorem Build.lat_command (b : Byte) (t : Units) (p : Build) : (p.command b t).lat = ⟨0, 0, 0, b⟩ := by
  simp [Build.command]

theorem Build.settled_command (b : Byte) (t : Units) (p : Build) : (p.command b t).Settled :=
  Build.settled_wait _ (Build.settled_sendInstr _ _)

theorem Build.sound_command {b : Byte} {t : Units} {p : Build} (h : p.Sound) : (p.command b t).Sound :=
  Build.sound_wait (Build.sound_sendInstr h rfl) (by simp)

/-- `Command(b, t)` adds `commandTrace` (R136). -/
theorem Build.events_command (b : Byte) (t : Units) (p : Build) :
    (p.command b t).events = p.events ++ commandTrace p.cfg p.bl b t :=
  Build.events_sendInstr_wait b t ((p.setRs 0).setRw 0) rfl

@[simp] theorem Build.cfg_data (b : Byte) (p : Build) : (p.data b).cfg = p.cfg := by simp [Build.data]
@[simp] theorem Build.bl_data (b : Byte) (p : Build) : (p.data b).bl = p.bl := by simp [Build.data]
@[simp] theorem Build.entry_data (b : Byte) (p : Build) : (p.data b).entry = p.entry := by simp [Build.data]
@[simp] theorem Build.disp_data (b : Byte) (p : Build) : (p.data b).disp = p.disp := by simp [Build.data]
@[simp] theorem Build.lat_data (b : Byte) (p : Build) : (p.data b).lat = ⟨1, 0, 0, b⟩ := by simp [Build.data]

theorem Build.settled_data (b : Byte) (p : Build) : (p.data b).Settled :=
  Build.settled_wait _ (Build.settled_sendInstr _ _)

theorem Build.sound_data {b : Byte} {p : Build} (h : p.Sound) : (p.data b).Sound :=
  Build.sound_wait (Build.sound_sendInstr h rfl) (by simp)

/-- `Data(b)` adds `dataTrace` (R136). -/
theorem Build.events_data (b : Byte) (p : Build) : (p.data b).events = p.events ++ dataTrace p.cfg p.bl b :=
  Build.events_sendInstr_wait b p.cfg.tWrite ((p.setRs 1).setRw 0) rfl

/-! ### Running an operation to its end (R37) -/

/-- What a list of micro-steps stores. -/
def storeAll (addr : BusAddr) (ms : List Micro) (m : Memory) : Memory :=
  ms.foldl (fun m x => x.act.store addr m) m

/-- The latches after a list of micro-steps. -/
def latAfter (l : Latches) (ms : List Micro) : Latches := (ms.getLast?.map Micro.lat).getD l

theorem latAfter_cons (l : Latches) (m : Micro) (ms : List Micro) : latAfter l (m :: ms) = latAfter m.lat ms := by
  cases ms with
  | nil => rfl
  | cons n ns => simp [latAfter, List.getLast?_cons]

/-- The run of a started operation to its end: its events are appended to OUT in order, its stores are made in order, and
the latches are left as its last micro-step has them. -/
theorem performs_start (ms : List Micro) (s : State) (h : s.seq = ms) :
    s.start.performs ms.length = { s with
      seq := [], tmr := 0, lat := latAfter s.lat ms
      out := s.out ++ ms.map (fun m => m.act.event s.cfg.addr), bus := storeAll s.cfg.addr ms s.bus } := by
  induction ms generalizing s with
  | nil =>
    cases s
    simp_all [State.performs, State.start, latAfter, storeAll]
  | cons m ms ih =>
    have hp : s.start.perform = State.start { s with
        lat := m.lat, tmr := m.act.load, seq := ms, out := s.out ++ [m.act.event s.cfg.addr]
        bus := m.act.store s.cfg.addr s.bus } := by
      rw [State.perform_cons (s := s.start) (m := m) (ms := ms) (by simpa using h), State.start_cons h]
    simp only [List.length_cons, State.performs, hp]
    rw [ih _ rfl]
    simp [latAfter_cons, storeAll]

/-- A command's whole effect on an idle engine: the registers of its operation, its events, its stores, and idle again. -/
theorem finish_load (s : State) (p : Build) (hc : p.cfg = s.cfg) (hl : p.Settled) :
    (s.load p).finish = { s with
      bl := p.bl, entry := p.entry, disp := p.disp, seq := [], tmr := 0, lat := p.lat
      out := s.out ++ p.events, bus := storeAll s.cfg.addr p.steps s.bus } := by
  unfold State.finish
  rw [State.load_seq]
  unfold State.load
  rw [performs_start p.steps _ rfl]
  simp only [Build.Settled] at hl
  simp [latAfter, hl, Build.events, hc]

/-! ### Acceptance (R36, R226) -/

theorem accept_idle {op : Build → Build} {s : State} (h : s.seq = []) :
    accept op s = .next (s.load (op s.toBuild)) := by
  simp [accept, State.idle, h]

theorem accept_busy {op : Build → Build} {s : State} (h : s.seq ≠ []) : accept op s = .next s := by
  simp [accept, State.idle, h]

end Sys2Proof.Machine
end

