-- ==== Sys2Proof/Laws/Flags.lean ====
section
/-! SUPPORT. What the two flag updates do to an operation being worked out (R174, R186), field by field. -/

namespace Sys2Proof.Machine

@[simp] theorem Build.cfg_setEntry (v : BitVec 2) (p : Build) : (p.setEntry v).cfg = p.cfg := rfl
@[simp] theorem Build.bl_setEntry (v : BitVec 2) (p : Build) : (p.setEntry v).bl = p.bl := rfl
@[simp] theorem Build.entry_setEntry (v : BitVec 2) (p : Build) : (p.setEntry v).entry = v := rfl
@[simp] theorem Build.disp_setEntry (v : BitVec 2) (p : Build) : (p.setEntry v).disp = p.disp := rfl
@[simp] theorem Build.lat_setEntry (v : BitVec 2) (p : Build) : (p.setEntry v).lat = p.lat := rfl
@[simp] theorem Build.events_setEntry (v : BitVec 2) (p : Build) : (p.setEntry v).events = p.events := rfl

@[simp] theorem Build.cfg_setDisp (v : BitVec 3) (p : Build) : (p.setDisp v).cfg = p.cfg := rfl
@[simp] theorem Build.bl_setDisp (v : BitVec 3) (p : Build) : (p.setDisp v).bl = p.bl := rfl
@[simp] theorem Build.entry_setDisp (v : BitVec 3) (p : Build) : (p.setDisp v).entry = p.entry := rfl
@[simp] theorem Build.disp_setDisp (v : BitVec 3) (p : Build) : (p.setDisp v).disp = v := rfl
@[simp] theorem Build.lat_setDisp (v : BitVec 3) (p : Build) : (p.setDisp v).lat = p.lat := rfl
@[simp] theorem Build.events_setDisp (v : BitVec 3) (p : Build) : (p.setDisp v).events = p.events := rfl

section
variable (s c : BitVec 2) (p : Build)

@[simp] theorem Build.cfg_entryUpdate : (p.entryUpdate s c).cfg = p.cfg := by simp [Build.entryUpdate]
@[simp] theorem Build.bl_entryUpdate : (p.entryUpdate s c).bl = p.bl := by simp [Build.entryUpdate]
@[simp] theorem Build.disp_entryUpdate : (p.entryUpdate s c).disp = p.disp := by simp [Build.entryUpdate]
@[simp] theorem Build.entry_entryUpdate : (p.entryUpdate s c).entry = updateFlags s c p.entry := by
  simp [Build.entryUpdate]
@[simp] theorem Build.lat_entryUpdate :
    (p.entryUpdate s c).lat = ⟨0, 0, 0, entryInstr (updateFlags s c p.entry)⟩ := by
  simp [Build.entryUpdate]

theorem Build.settled_entryUpdate : (p.entryUpdate s c).Settled := Build.settled_command _ _ _

theorem Build.sound_entryUpdate {p : Build} (h : p.Sound) : (p.entryUpdate s c).Sound := Build.sound_command h

/-- The new value is sent below the opcode (R174). -/
theorem Build.events_entryUpdate :
    (p.entryUpdate s c).events =
      p.events ++ commandTrace p.cfg p.bl (entryInstr (updateFlags s c p.entry)) p.cfg.tSettle := by
  simp [Build.entryUpdate, Build.events_command]

end

section
variable (s c : BitVec 3) (p : Build)

@[simp] theorem Build.cfg_dispUpdate : (p.dispUpdate s c).cfg = p.cfg := by simp [Build.dispUpdate]
@[simp] theorem Build.bl_dispUpdate : (p.dispUpdate s c).bl = p.bl := by simp [Build.dispUpdate]
@[simp] theorem Build.entry_dispUpdate : (p.dispUpdate s c).entry = p.entry := by simp [Build.dispUpdate]
@[simp] theorem Build.disp_dispUpdate : (p.dispUpdate s c).disp = updateFlags s c p.disp := by
  simp [Build.dispUpdate]
@[simp] theorem Build.lat_dispUpdate :
    (p.dispUpdate s c).lat = ⟨0, 0, 0, dispInstr (updateFlags s c p.disp)⟩ := by
  simp [Build.dispUpdate]

theorem Build.settled_dispUpdate : (p.dispUpdate s c).Settled := Build.settled_command _ _ _

theorem Build.sound_dispUpdate {p : Build} (h : p.Sound) : (p.dispUpdate s c).Sound := Build.sound_command h

/-- The new value is sent below the opcode (R186). -/
theorem Build.events_dispUpdate :
    (p.dispUpdate s c).events =
      p.events ++ commandTrace p.cfg p.bl (dispInstr (updateFlags s c p.disp)) p.cfg.tSettle := by
  simp [Build.dispUpdate, Build.events_command]

end

end Sys2Proof.Machine
end

