-- ==== Sys2Proof/Laws/Operands.lean ====
section
/-! SUPPORT. The operand forms in natural numbers (R5, R30, R203) and as the spec's tables write them (R103, R200). -/

namespace Sys2Proof.Machine

theorem cols_toNat (c : Cfg) : (cols c).toNat = max 1 c.colsCfg.toNat := by
  simp only [cols, maxByte, BitVec.le_def]
  split <;> simp_all

theorem rows_toNat (c : Cfg) : (rows c).toNat = min 4 (max 1 c.rowsCfg.toNat) := by
  simp only [rows, maxByte, minByte, BitVec.le_def]
  split
  · simp_all; split_ifs at * <;> simp_all <;> omega
  · split_ifs at * <;> simp_all

theorem colMax_toNat (c : Cfg) : (colMax c).toNat = (cols c).toNat - 1 := by
  have := cols_toNat c
  have h2 := (cols c).isLt
  unfold colMax
  rw [BitVec.toNat_sub]
  simp
  omega

theorem rowMax_toNat (c : Cfg) : (rowMax c).toNat = (rows c).toNat - 1 := by
  have := rows_toNat c
  unfold rowMax
  rw [BitVec.toNat_setWidth, BitVec.toNat_sub]
  simp
  omega

theorem clampCol_toNat (c : Cfg) (x : Byte) : (clampCol c x).toNat = min x.toNat (colMax c).toNat := by
  simp only [clampCol, minByte, BitVec.le_def]
  split <;> omega

theorem clampRow_toNat (c : Cfg) (x : Byte) : (clampRow c x).toNat = min x.toNat (rowMax c).toNat := by
  have h := (rowMax c).isLt
  simp only [clampRow, minByte, BitVec.le_def]
  split <;> simp_all <;> omega

theorem rowOff_le (r : BitVec 2) : (rowOff r).toNat ≤ 0x54 := by decide +revert

theorem rowOff_toNat (r : BitVec 2) : (rowOff r).toNat = [0x00, 0x40, 0x14, 0x54].getD r.toNat 0 := by decide +revert

theorem cursorAddr_toNat (c : Cfg) (x y : Byte) :
    (cursorAddr c x y).toNat = ((rowOff (clampRow c y)).toNat + (clampCol c x).toNat) % 128 := by
  have h1 := rowOff_le (clampRow c y)
  have h2 := (clampCol c x).isLt
  simp only [cursorAddr, BitVec.toNat_setWidth, BitVec.toNat_add]
  omega

theorem setDdramInstr_toNat (a : DdramAddr) : (setDdramInstr a).toNat = 0x80 + a.toNat := by decide +revert

/-- The byte of `SET_CURSOR` as the engine forms it is the one computed in natural numbers (R201, R203). -/
theorem setDdramInstr_cursorAddr (c : Cfg) (x y : Byte) : setDdramInstr (cursorAddr c x y) = cursorByte c x y := by
  apply BitVec.eq_of_toNat_eq
  rw [setDdramInstr_toNat, cursorAddr_toNat, rowOff_toNat, clampRow_toNat, clampCol_toNat, rowMax_toNat, colMax_toNat,
    rows_toNat, cols_toNat]
  unfold cursorByte
  simp only [BitVec.toNat_ofNat]
  omega

/-- Position (0, 0) is DDRAM address 0 for every geometry (R200). -/
theorem cursorByte_origin (c : Cfg) : cursorByte c 0#8 0#8 = 128#8 := by simp [cursorByte]

theorem setCgramInstr_slotOf (a : Byte) : setCgramInstr (slotOf a) = 0x40#8 ||| ((a &&& 0x07#8) <<< 3) := by
  unfold setCgramInstr slotOf
  ext i hi
  simp
  interval_cases i <;> simp

theorem glyphByte_eq (g : Payload) (k : Nat) : glyphByte g k = (g >>> (8 * k)).setWidth 8 := by
  ext i hi
  simp [glyphByte]

theorem glyphBytes_flatMap (g : Payload) (f : Byte → List Event) :
    (glyphBytes g).flatMap f = (List.range 8).flatMap (fun k => f ((g >>> (8 * k)).setWidth 8)) := by
  simp [glyphBytes, List.range, List.range.loop, glyphByte_eq]

end Sys2Proof.Machine
end

