-- ==== Sys2Proof/Laws/Exec.lean ====
section
/-! SUPPORT. What the commands' operations do, said once for all 20: the registers they write (R32), the events they send
(R104), the latches they leave, and the state in which an accepted operation ends. -/

namespace Sys2Proof.Machine

/-- The operation of each command. -/
def opOf : Instr → Build → Build
  | .init => opInit
  | .clear => opClear
  | .home => opHome
  | .leftToRight => opLeftToRight
  | .rightToLeft => opRightToLeft
  | .autoscrollOn => opAutoscrollOn
  | .autoscrollOff => opAutoscrollOff
  | .displayOn => opDisplayOn
  | .displayOff => opDisplayOff
  | .cursorOn => opCursorOn
  | .cursorOff => opCursorOff
  | .blinkOn => opBlinkOn
  | .blinkOff => opBlinkOff
  | .scrollLeft => opScrollLeft
  | .scrollRight => opScrollRight
  | .defineGlyph a g => opDefineGlyph a g
  | .setCursor a b => opSetCursor a b
  | .writeChar a => opWriteChar a
  | .backlightOn => opBacklightOn
  | .backlightOff => opBacklightOff

/-- Every meaning is the acceptance of its operation. -/
theorem exec_eq (i : Instr) (s : State) : exec i s = accept (opOf i) s := by cases i <;> rfl

theorem exec_idle (i : Instr) {s : State} (h : s.seq = []) : exec i s = .next (s.load (opOf i s.toBuild)) := by
  rw [exec_eq, accept_idle h]

/-! ### The flag updates of the ten flag commands -/

theorem updateFlags_dir_set (e : BitVec 2) : updateFlags (0b10#2) (0b00#2) e = e ||| 0b10#2 := by decide +revert
theorem updateFlags_dir_clear (e : BitVec 2) : updateFlags (0b00#2) (0b10#2) e = e &&& 0b01#2 := by decide +revert
theorem updateFlags_auto_set (e : BitVec 2) : updateFlags (0b01#2) (0b00#2) e = e ||| 0b01#2 := by decide +revert
theorem updateFlags_auto_clear (e : BitVec 2) : updateFlags (0b00#2) (0b01#2) e = e &&& 0b10#2 := by decide +revert
theorem updateFlags_don_set (d : BitVec 3) : updateFlags (0b100#3) (0b000#3) d = d ||| 0b100#3 := by decide +revert
theorem updateFlags_don_clear (d : BitVec 3) : updateFlags (0b000#3) (0b100#3) d = d &&& 0b011#3 := by decide +revert
theorem updateFlags_cur_set (d : BitVec 3) : updateFlags (0b010#3) (0b000#3) d = d ||| 0b010#3 := by decide +revert
theorem updateFlags_cur_clear (d : BitVec 3) : updateFlags (0b000#3) (0b010#3) d = d &&& 0b101#3 := by decide +revert
theorem updateFlags_blk_set (d : BitVec 3) : updateFlags (0b001#3) (0b000#3) d = d ||| 0b001#3 := by decide +revert
theorem updateFlags_blk_clear (d : BitVec 3) : updateFlags (0b000#3) (0b001#3) d = d &&& 0b110#3 := by decide +revert

/-! ### A run of character writes (R200) -/

/-- The registers of an operation being worked out. -/
def Build.regs (p : Build) : Regs := ⟨p.bl, p.entry, p.disp⟩

theorem Build.cfg_datas (ds : List Byte) (p : Build) : (ds.foldl (fun r d => Build.data d r) p).cfg = p.cfg := by
  induction ds generalizing p with
  | nil => rfl
  | cons d ds ih => simp [ih]

theorem Build.regs_datas (ds : List Byte) (p : Build) : (ds.foldl (fun r d => Build.data d r) p).regs = p.regs := by
  induction ds generalizing p with
  | nil => rfl
  | cons d ds ih => simp only [List.foldl_cons, ih]; simp [Build.regs]

theorem Build.bl_datas (ds : List Byte) (p : Build) : (ds.foldl (fun r d => Build.data d r) p).bl = p.bl :=
  congrArg Regs.bl (Build.regs_datas ds p)

theorem Build.events_datas (ds : List Byte) (p : Build) :
    (ds.foldl (fun r d => Build.data d r) p).events = p.events ++ ds.flatMap (dataTrace p.cfg p.bl) := by
  induction ds generalizing p with
  | nil => simp
  | cons d ds ih => simp [ih, Build.events_data]

theorem Build.sound_datas (ds : List Byte) {p : Build} (h : p.Sound) :
    (ds.foldl (fun r d => Build.data d r) p).Sound := by
  induction ds generalizing p with
  | nil => exact h
  | cons d ds ih => exact ih (Build.sound_data h)

/-! ### The handshake (R150 steps 1 to 4) -/

@[simp] theorem cfg_opHandshake (p : Build) : (opHandshake p).cfg = p.cfg := by simp [opHandshake]
@[simp] theorem bl_opHandshake (p : Build) : (opHandshake p).bl = p.bl := by simp [opHandshake]
@[simp] theorem entry_opHandshake (p : Build) : (opHandshake p).entry = p.entry := by simp [opHandshake]
@[simp] theorem disp_opHandshake (p : Build) : (opHandshake p).disp = p.disp := by simp [opHandshake]

theorem events_opHandshake (p : Build) :
    (opHandshake p).events =
      p.events ++ halfTrace p.cfg p.bl 0x30 p.cfg.tInit1 ++ halfTrace p.cfg p.bl 0x30 p.cfg.tInit2 ++
        halfTrace p.cfg p.bl 0x30 p.cfg.tInit3 ++ halfTrace p.cfg p.bl 0x20 p.cfg.tSettle ++
        commandTrace p.cfg p.bl 0x28 p.cfg.tSettle := by
  simp only [opHandshake]
  rw [Build.events_sendInstr_wait _ _ _ (by simp), Build.events_sendHalf_wait _ _ _ (by simp) (by simp),
    Build.events_sendHalf_wait _ _ _ (by simp) (by simp), Build.events_sendHalf_wait _ _ _ (by simp) (by simp),
    Build.events_sendHalf_wait _ _ _ (by simp) (by simp)]
  simp [commandTrace]

theorem sound_opHandshake {p : Build} (h : p.Sound) : (opHandshake p).Sound := by
  unfold opHandshake
  refine Build.sound_wait (Build.sound_sendInstr ?_ (by simp)) (by simp)
  refine Build.sound_wait (Build.sound_sendHalf ?_ (by simp)) (by simp)
  refine Build.sound_wait (Build.sound_sendHalf ?_ (by simp)) (by simp)
  refine Build.sound_wait (Build.sound_sendHalf ?_ (by simp)) (by simp)
  exact Build.sound_wait (Build.sound_sendHalf h (by simp)) (by simp)

/-! ### Every operation -/

theorem cfg_opOf (i : Instr) (p : Build) : (opOf i p).cfg = p.cfg := by
  cases i <;> simp [opOf, opInit, opClear, opHome, opLeftToRight, opRightToLeft, opAutoscrollOn, opAutoscrollOff,
    opDisplayOn, opDisplayOff, opCursorOn, opCursorOff, opBlinkOn, opBlinkOff, opScrollLeft, opScrollRight,
    opDefineGlyph, opSetCursor, opWriteChar, opBacklightOn, opBacklightOff, Build.cfg_datas]

/-- The registers an operation leaves (R32). -/
theorem regs_opOf (i : Instr) (p : Build) : (opOf i p).regs = regsAfter i p.regs := by
  have h1 := fun ds p => congrArg Regs.bl (Build.regs_datas ds p)
  have h2 := fun ds p => congrArg Regs.entry (Build.regs_datas ds p)
  have h3 := fun ds p => congrArg Regs.disp (Build.regs_datas ds p)
  cases i <;> simp_all [Build.regs, regsAfter, opOf, opInit, opClear, opHome, opLeftToRight, opRightToLeft,
    opAutoscrollOn, opAutoscrollOff, opDisplayOn, opDisplayOff, opCursorOn, opCursorOff, opBlinkOn, opBlinkOff,
    opScrollLeft, opScrollRight, opDefineGlyph, opSetCursor, opWriteChar, opBacklightOn, opBacklightOff,
    updateFlags_dir_set, updateFlags_dir_clear, updateFlags_auto_set, updateFlags_auto_clear, updateFlags_don_set,
    updateFlags_don_clear, updateFlags_cur_set, updateFlags_cur_clear, updateFlags_blk_set, updateFlags_blk_clear]

/-- The events an operation sends (R104). -/
theorem events_opOf (i : Instr) (p : Build) (hs : p.events = []) : (opOf i p).events = traceOf p.cfg i p.regs := by
  cases i <;> simp [opOf, traceOf, opInit, opClear, opHome, opLeftToRight, opRightToLeft, opAutoscrollOn,
    opAutoscrollOff, opDisplayOn, opDisplayOff, opCursorOn, opCursorOff, opBlinkOn, opBlinkOff, opScrollLeft,
    opScrollRight, opDefineGlyph, opSetCursor, opWriteChar, opBacklightOn, opBacklightOff, Build.events_entryUpdate,
    Build.events_dispUpdate, Build.events_command, Build.events_data, hs, setDdramInstr_cursorAddr, cursorByte_origin,
    Build.regs, regsAfter, entryInstr, dispInstr, updateFlags_dir_set, updateFlags_dir_clear, updateFlags_auto_set,
    updateFlags_auto_clear, updateFlags_don_set, updateFlags_don_clear, updateFlags_cur_set, updateFlags_cur_clear,
    updateFlags_blk_set, updateFlags_blk_clear, Build.bl_datas, Build.events_datas, Build.cfg_datas,
    setCgramInstr_slotOf, glyphTrace, glyphBytes_flatMap, events_opHandshake, initTrace, backlightByte]

theorem settled_opOf (i : Instr) (p : Build) : (opOf i p).Settled := by
  cases i with
  | init => simp only [opOf, opInit, opLeftToRight]; exact Build.settled_entryUpdate _ _ _
  | backlightOn => exact Build.settled_tx _ _
  | backlightOff => exact Build.settled_tx _ _
  | writeChar a => exact Build.settled_data _ _
  | leftToRight | rightToLeft | autoscrollOn | autoscrollOff => exact Build.settled_entryUpdate _ _ _
  | displayOn | displayOff | cursorOn | cursorOff | blinkOn | blinkOff => exact Build.settled_dispUpdate _ _ _
  | defineGlyph a g => simp only [opOf, opDefineGlyph, opSetCursor]; exact Build.settled_command _ _ _
  | setCursor a b => exact Build.settled_command _ _ _
  | clear | home | scrollLeft | scrollRight => exact Build.settled_command _ _ _

theorem sound_opOf (i : Instr) {p : Build} (h : p.Sound) (hrw : p.lat.rw = 0) : (opOf i p).Sound := by
  cases i with
  | init =>
    simp only [opOf, opInit, opLeftToRight, opClear, opDisplayOn]
    exact Build.sound_entryUpdate _ _ (Build.sound_command (Build.sound_dispUpdate _ _ (sound_opHandshake h)))
  | backlightOn => exact Build.sound_tx h hrw (by simp [backlightByte]; decide)
  | backlightOff => exact Build.sound_tx h hrw (by simp [backlightByte]; decide)
  | writeChar a => exact Build.sound_data h
  | defineGlyph a g =>
    simp only [opOf, opDefineGlyph, opSetCursor, opWriteChar]
    exact Build.sound_command (Build.sound_datas _ (Build.sound_command h))
  | leftToRight | rightToLeft | autoscrollOn | autoscrollOff => exact Build.sound_entryUpdate _ _ h
  | displayOn | displayOff | cursorOn | cursorOff | blinkOn | blinkOff => exact Build.sound_dispUpdate _ _ h
  | setCursor a b => exact Build.sound_command h
  | clear | home | scrollLeft | scrollRight => exact Build.sound_command h

/-- The latches a command leaves: the "Leaves" of its rule. -/
def latLeft (i : Instr) (s : State) : Latches :=
  match i with
  | .init => ⟨0, 0, 0, 0x04 ||| (s.entry ||| 0b10).setWidth 8⟩
  | .clear => ⟨0, 0, 0, 0x01⟩
  | .home => ⟨0, 0, 0, 0x02⟩
  | .leftToRight | .rightToLeft | .autoscrollOn | .autoscrollOff =>
    ⟨0, 0, 0, 0x04 ||| (regsAfter i s.regs).entry.setWidth 8⟩
  | .displayOn | .displayOff | .cursorOn | .cursorOff | .blinkOn | .blinkOff =>
    ⟨0, 0, 0, 0x08 ||| (regsAfter i s.regs).disp.setWidth 8⟩
  | .scrollLeft => ⟨0, 0, 0, 0x18⟩
  | .scrollRight => ⟨0, 0, 0, 0x1C⟩
  | .defineGlyph _ _ => ⟨0, 0, 0, 0x80⟩
  | .setCursor a b => ⟨0, 0, 0, cursorByte s.cfg a b⟩
  | .writeChar a => ⟨1, 0, 0, a⟩
  | .backlightOn | .backlightOff => s.lat

theorem lat_opOf (i : Instr) (s : State) : (opOf i s.toBuild).lat = latLeft i s := by
  cases i <;> simp [opOf, latLeft, State.regs, regsAfter, opInit, opClear, opHome, opLeftToRight, opRightToLeft,
    opAutoscrollOn, opAutoscrollOff, opDisplayOn, opDisplayOff, opCursorOn, opCursorOff, opBlinkOn, opBlinkOff,
    opScrollLeft, opScrollRight, opDefineGlyph, opSetCursor, opWriteChar, opBacklightOn, opBacklightOff, entryInstr,
    dispInstr, updateFlags_dir_set, updateFlags_dir_clear, updateFlags_auto_set, updateFlags_auto_clear,
    updateFlags_don_set, updateFlags_don_clear, updateFlags_cur_set, updateFlags_cur_clear, updateFlags_blk_set,
    updateFlags_blk_clear, setDdramInstr_cursorAddr, cursorByte_origin, Build.cfg_datas]

/-! ### The bytes of an operation -/

@[simp] theorem txEvents_append (a b : List Event) : txEvents (a ++ b) = txEvents a ++ txEvents b := by
  induction a with
  | nil => rfl
  | cons e a ih => cases e <;> simp [txEvents, ih]

@[simp] theorem waitEvents_append (a b : List Event) : waitEvents (a ++ b) = waitEvents a ++ waitEvents b := by
  induction a with
  | nil => rfl
  | cons e a ih => cases e <;> simp [waitEvents, ih]

@[simp] theorem txEvents_waitTrace (n : Units) : txEvents (waitTrace n) = [] := by
  unfold waitTrace; split <;> rfl

theorem waitEvents_waitTrace (n : Units) : waitEvents (waitTrace n) = if n = 0 then [] else [n] := by
  unfold waitTrace; split <;> rfl

/-- The four bytes of a full transmission (R136). -/
theorem txEvents_instrTrace (c : Cfg) (rs bl : Line) (b : Byte) (t : Units) :
    txEvents (instrTrace c rs bl b t) =
      [(c.addr, (b &&& 0xF0) ||| staticBits rs bl ||| 0x04), (c.addr, (b &&& 0xF0) ||| staticBits rs bl),
       (c.addr, ((b <<< 4) &&& 0xF0) ||| staticBits rs bl ||| 0x04),
       (c.addr, ((b <<< 4) &&& 0xF0) ||| staticBits rs bl)] := by
  simp [instrTrace, txEvents]

/-- The two bytes of a high-nibble-only transmission (R132). -/
theorem txEvents_halfTrace (c : Cfg) (bl : Line) (b : Byte) (t : Units) :
    txEvents (halfTrace c bl b t) =
      [(c.addr, (b &&& 0xF0) ||| staticBits 0 bl ||| 0x04), (c.addr, (b &&& 0xF0) ||| staticBits 0 bl)] := by
  simp [halfTrace, txEvents]

/-- The last byte a list of micro-steps writes. -/
def lastTx (ms : List Micro) : Option Byte :=
  (ms.filterMap (fun m => match m.act with | .tx v => some v | .wait _ => none)).getLast?

/-- Of all the stores of an operation the last one is held (R44). -/
theorem storeAll_eq (addr : BusAddr) (ms : List Micro) (m : Memory) :
    storeAll addr ms m = match lastTx ms with | none => m | some v => m.write addr.toNat v := by
  induction ms using List.reverseRecOn with
  | nil => rfl
  | append_singleton ms x ih =>
    obtain ⟨l, a⟩ := x
    rw [storeAll, List.foldl_append]
    rw [storeAll] at ih
    rw [ih]
    cases a with
    | tx v =>
      simp [Act.store, lastTx]
      split <;> simp [Memory.write_write_same]
    | wait n => simp [Act.store, lastTx]

theorem lastTx_steps (p : Build) : lastTx p.steps = (txEvents p.events).getLast?.map Prod.snd := by
  have h : ∀ ms : List Micro,
      (ms.filterMap (fun m => match m.act with | .tx v => some v | .wait _ => none)) =
        (txEvents (ms.map (fun m => m.act.event p.cfg.addr))).map Prod.snd := by
    intro ms
    induction ms with
    | nil => rfl
    | cons m ms ih =>
      obtain ⟨l, a⟩ := m
      cases a <;> simp [txEvents, Act.event, ih]
  rw [lastTx, h, Build.events, List.getLast?_map]

/-- The state in which the operation of a command ends, all of it. -/
theorem finish_exec (i : Instr) (s : State) :
    (s.load (opOf i s.toBuild)).finish = { s with
      bl := (regsAfter i s.regs).bl, entry := (regsAfter i s.regs).entry, disp := (regsAfter i s.regs).disp
      seq := [], tmr := 0, lat := latLeft i s
      out := s.out ++ traceOf s.cfg i s.regs
      bus := match (txEvents (traceOf s.cfg i s.regs)).getLast? with
        | none => s.bus
        | some e => s.bus.write s.cfg.addr.toNat e.2 } := by
  have hr := regs_opOf i s.toBuild
  have hr' : s.toBuild.regs = s.regs := rfl
  rw [hr'] at hr
  have he := events_opOf i s.toBuild rfl
  rw [hr'] at he
  rw [finish_load s _ (cfg_opOf _ _) (settled_opOf _ _), storeAll_eq, lastTx_steps, he, lat_opOf]
  simp only [← hr, Build.regs, State.toBuild_cfg]
  congr 1
  cases (txEvents (traceOf s.cfg i s.regs)).getLast? <;> rfl

/-- An accepted command has its whole trace still to send (R36). -/
theorem pending_load (i : Instr) (s : State) : (s.load (opOf i s.toBuild)).pending = traceOf s.cfg i s.regs := by
  have he := events_opOf i s.toBuild rfl
  have hc := cfg_opOf i s.toBuild
  simp only [State.pending, State.load_seq, State.load_cfg]
  rw [← show s.toBuild.regs = s.regs from rfl, ← show s.toBuild.cfg = s.cfg from rfl, ← he, Build.events, hc]

/-- The registers are written at acceptance (R36). -/
theorem regs_load (i : Instr) (s : State) : (s.load (opOf i s.toBuild)).regs = regsAfter i s.regs := by
  rw [← show s.toBuild.regs = s.regs from rfl, ← regs_opOf i s.toBuild]
  simp [State.regs, Build.regs]

/-- A command issued to an idle engine. -/
theorem issue_idle (i : Instr) {s : State} (h : s.seq = []) : s.issue i = (s.load (opOf i s.toBuild)).finish := by
  simp [State.issue, exec_idle i h]

end Sys2Proof.Machine
end

