-- ==== Sys2Proof/Laws/Step.lean ====
section
/-! SUPPORT. What a step and a clock cycle can do, said once (R37, R225, R226). -/

namespace Sys2Proof.Machine

/-- The `Tx` that lands when reset arrives is the one at the head of SEQ, or none (R251). -/
theorem landed_cases (s : State) :
    s.landed = [] ∨ ∃ l v ms, s.seq = ⟨l, .tx v⟩ :: ms ∧ s.landed = [.tx v] := by
  unfold State.landed
  split
  · split
    · exact .inr ⟨_, _, _, ‹_›, rfl⟩
    · exact .inl rfl
  · exact .inl rfl

/-- A step to a next state performs a micro-step (or idles), takes a reset, or runs the command on the port of an idle
engine. -/
theorem step_cases {s t : State} (h : step s = .next t) :
    (∃ r, t = State.perform { s with inputs := r }) ∨
    (∃ rest, s.inputs = .reset :: rest ∧ t = State.takeReset { s with inputs := rest }) ∨
    (∃ w i rest, s.seq = [] ∧ s.inputs = .command w :: rest ∧ decode w = .ok i ∧
      exec i { s with inputs := rest } = .next t) := by
  unfold step at h
  split at h
  · cases h
    exact .inl ⟨s.inputs, rfl⟩
  · cases h
    exact .inl ⟨_, rfl⟩
  · cases h
    exact .inr (.inl ⟨_, ‹_›, rfl⟩)
  · split at h
    · rename_i hin hi
      split at h
      · exact .inr (.inr ⟨_, _, _, State.idle_iff.1 hi, hin, ‹_›, h⟩)
      · cases h
    · cases h
      exact .inl ⟨s.inputs, rfl⟩

/-- A cycle to a next state takes a reset, leaves an idle engine alone, runs the presented command on an idle engine, or
lets the running micro-step advance. -/
theorem cycle_cases {p : PortIn} {s t : State} (h : cycle p s = .next t) :
    (p.rst = true ∧ t = s.takeReset) ∨
    (p.rst = false ∧ s.seq = [] ∧ p.cmdValid = false ∧ t = s) ∨
    (p.rst = false ∧ s.seq = [] ∧ p.cmdValid = true ∧ ∃ i, decode p.cmdWord = .ok i ∧ exec i s = .next t) ∨
    (p.rst = false ∧ s.seq ≠ [] ∧ t = s.advance p) := by
  unfold cycle at h
  split at h
  · cases h
    exact .inl ⟨‹_›, rfl⟩
  · rename_i hr
    have hr : p.rst = false := by simpa using hr
    split at h
    · rename_i hi
      have hs := State.idle_iff.1 hi
      split at h
      · unfold acceptWord at h
        split at h
        · exact .inr (.inr (.inl ⟨hr, hs, ‹_›, _, ‹_›, h⟩))
        · cases h
      · rename_i hv
        cases h
        exact .inr (.inl ⟨hr, hs, by simpa using hv, rfl⟩)
    · rename_i hi
      cases h
      exact .inr (.inr (.inr ⟨hr, State.not_idle_iff.1 (by simpa using hi), rfl⟩))

/-- A running micro-step stays as it is, counts one strobe of its wait, or completes (R86, R87). -/
theorem advance_cases (p : PortIn) (s : State) :
    s.advance p = s ∨
    (s.seq ≠ [] ∧ p.unitTick = true ∧ s.tmr ≠ 0 ∧ s.advance p = { s with tmr := s.tmr - 1 }) ∨
    (s.seq ≠ [] ∧ s.advance p = s.perform) := by
  unfold State.advance
  split
  · exact .inl rfl
  · split
    · exact .inr (.inr ⟨by simp [*], rfl⟩)
    · exact .inl rfl
  · split
    · split
      · exact .inr (.inr ⟨by simp [*], rfl⟩)
      · exact .inr (.inl ⟨by simp [*], ‹_›, ‹_›, rfl⟩)
    · exact .inl rfl

end Sys2Proof.Machine
end

