-- ==== Sys2Proof/Laws/Inputs.lean ====
section
/-! SUPPORT. The host's further acts and TMR take no part in what an operation does (R34, R226). -/

namespace Sys2Proof.Machine

theorem start_inputs (s : State) (r : List Input) :
    State.start { s with inputs := r } = { s.start with inputs := r } := by
  obtain ⟨c, l, b, e, d, q, t, o, bu, i, p, dr⟩ := s
  cases q <;> rfl

theorem start_tmr (s : State) (n : Units) : State.start { s with tmr := n } = s.start := by
  obtain ⟨c, l, b, e, d, q, t, o, bu, i, p, dr⟩ := s
  cases q <;> rfl

theorem perform_inputs (s : State) (r : List Input) :
    State.perform { s with inputs := r } = { s.perform with inputs := r } := by
  obtain ⟨c, l, b, e, d, q, t, o, bu, i, p, dr⟩ := s
  cases q with
  | nil => rfl
  | cons m ms => exact start_inputs ⟨c, l, b, e, d, ms, t, _, _, i, p, dr⟩ r

/-- Acceptance does not depend on what the host does next. -/
theorem exec_inputs {i : Instr} {s t : State} (hs : s.seq = []) (h : exec i s = .next t) (r : List Input) :
    exec i { s with inputs := r } = .next { t with inputs := r } := by
  rw [exec_idle i hs] at h
  rw [exec_idle i (show ({ s with inputs := r } : State).seq = [] from hs)]
  cases h
  exact congrArg Host.Outcome.next (start_inputs
    { s with
      bl := (opOf i s.toBuild).bl, entry := (opOf i s.toBuild).entry, disp := (opOf i s.toBuild).disp
      seq := (opOf i s.toBuild).steps } r)

/-- A step of a busy engine that is not reset performs a micro-step. -/
theorem step_busy {s : State} (h : s.seq ≠ []) (hi : s.inputs = [] ∨ ∃ w rest, s.inputs = .command w :: rest) :
    step s = .next s.perform := by
  rcases hi with hi | ⟨w, rest, hi⟩ <;> simp [step, hi, State.idle, h]

end Sys2Proof.Machine
end

