-- ==== Sys2Proof/Laws/Trace.lean ====
section
/-! SUPPORT. What an observer reads off the traces of transmissions: whole enable pulses (R91), counts and sums of waits
(R280), latched nibbles (R82, R83), and what they tell of the controller (R45 to R47). -/

namespace Sys2Proof.Machine

/-! ### The bits of the bytes of a transmission (R90, R136) -/

theorem enBit_raised (b : Byte) (rs bl : Line) : enBit ((b &&& 0xF0) ||| staticBits rs bl ||| 0x04) = 1 := by
  unfold enBit staticBits
  ext i hi
  obtain rfl : i = 0 := by omega
  simp

theorem enBit_lowered (b : Byte) (rs bl : Line) : enBit ((b &&& 0xF0) ||| staticBits rs bl) = 0 := by
  unfold enBit staticBits
  ext i hi
  obtain rfl : i = 0 := by omega
  simp

theorem enBit_lastByte (rs bl : Line) (b : Byte) : enBit (lastByte rs bl b) = 0 := enBit_lowered _ _ _

theorem raised_cleared (b : Byte) (rs bl : Line) :
    ((b &&& 0xF0) ||| staticBits rs bl ||| 0x04) &&& 0xFB = (b &&& 0xF0) ||| staticBits rs bl := by
  unfold staticBits
  ext i hi
  simp
  interval_cases i <;> simp

theorem rsBit_lowered (b : Byte) (rs bl : Line) : rsBit ((b &&& 0xF0) ||| staticBits rs bl) = rs := by
  unfold rsBit staticBits
  ext i hi
  obtain rfl : i = 0 := by omega
  simp

theorem hiNibble_high (b : Byte) (rs bl : Line) : hiNibble ((b &&& 0xF0) ||| staticBits rs bl) = hiNibble b := by
  unfold hiNibble staticBits
  ext i hi
  simp
  interval_cases i <;> simp

theorem hiNibble_low (b : Byte) (rs bl : Line) :
    hiNibble (((b <<< 4) &&& 0xF0) ||| staticBits rs bl) = loNibble b := by
  unfold hiNibble loNibble staticBits
  ext i hi
  simp
  interval_cases i <;> simp

/-- The two nibbles of a byte make the byte. -/
theorem hiNibble_append_loNibble (b : Byte) : hiNibble b ++ loNibble b = b := by
  unfold hiNibble loNibble
  apply BitVec.eq_of_getLsbD_eq
  intro i hi
  rw [BitVec.getLsbD_append]
  simp only [BitVec.getLsbD_extractLsb']
  by_cases h : i < 4
  · simp [h]
  · have : 4 + (i - 4) = i := by omega
    have h4 : i - 4 < 4 := by omega
    simp [h, h4, this]

/-! ### Latched nibbles -/

/-- The byte before, if any, has enable low. -/
def Low (prev : Option (BusAddr × Byte)) : Prop := ∀ a v, prev = some (a, v) → enBit v = 0

theorem low_none : Low none := by
  intro a v h
  cases h

theorem low_lastByte (a : BusAddr) (b : Byte) (rs bl : Line) : Low (some (a, lastByte rs bl b)) := by
  intro a' v h
  cases h
  exact enBit_lastByte _ _ _

theorem low_half (a : BusAddr) (b : Byte) (bl : Line) : Low (some (a, b &&& 0xF0 ||| staticBits 0 bl)) := by
  intro a' v h
  cases h
  exact enBit_lowered _ _ _

/-- A full transmission latches its two nibbles, high first, and ends with enable low (R83). -/
theorem latchedAfter_instrTrace {prev : Option (BusAddr × Byte)} (c : Cfg) (rs bl : Line) (b : Byte) (t : Units)
    (rest : List (BusAddr × Byte)) (hp : Low prev) :
    latchedAfter prev (txEvents (instrTrace c rs bl b t) ++ rest) =
      (rs, hiNibble b) :: (rs, loNibble b) :: latchedAfter (some (c.addr, lastByte rs bl b)) rest := by
  have h1 := enBit_raised b rs bl
  have h2 := enBit_lowered b rs bl
  have h3 := enBit_raised (b <<< 4) rs bl
  have h4 := enBit_lowered (b <<< 4) rs bl
  have n1 := hiNibble_high b rs bl
  have n2 := hiNibble_low b rs bl
  have n3 := rsBit_lowered b rs bl
  have n4 := rsBit_lowered (b <<< 4) rs bl
  rw [txEvents_instrTrace]
  simp only [List.cons_append, List.nil_append, latchedAfter, lastByte]
  generalize (b &&& 0xF0 ||| staticBits rs bl ||| 0x04) = x1 at *
  generalize (b &&& 0xF0 ||| staticBits rs bl) = x2 at *
  generalize (b <<< 4 &&& 0xF0 ||| staticBits rs bl ||| 0x04) = x3 at *
  generalize (b <<< 4 &&& 0xF0 ||| staticBits rs bl) = x4 at *
  cases prev with
  | none => simp [h1, h2, h3, h4, n1, n2, n3, n4]
  | some p => simp [h1, h2, h3, h4, n1, n2, n3, n4, hp p.1 p.2 rfl]

/-- The same at the end of a trace. -/
theorem latchedAfter_instrTrace_last {prev : Option (BusAddr × Byte)} (c : Cfg) (rs bl : Line) (b : Byte) (t : Units)
    (hp : Low prev) :
    latchedAfter prev (txEvents (instrTrace c rs bl b t)) = [(rs, hiNibble b), (rs, loNibble b)] := by
  have h := latchedAfter_instrTrace c rs bl b t [] hp
  rw [List.append_nil] at h
  rw [h]
  rfl

/-- A high-nibble-only transmission latches that nibble (R132). -/
theorem latchedAfter_halfTrace {prev : Option (BusAddr × Byte)} (c : Cfg) (bl : Line) (b : Byte) (t : Units)
    (rest : List (BusAddr × Byte)) (hp : Low prev) :
    latchedAfter prev (txEvents (halfTrace c bl b t) ++ rest) =
      (0, hiNibble b) :: latchedAfter (some (c.addr, (b &&& 0xF0) ||| staticBits 0 bl)) rest := by
  have h1 := enBit_raised b 0 bl
  have h2 := enBit_lowered b 0 bl
  have n1 := hiNibble_high b 0 bl
  have n3 := rsBit_lowered b 0 bl
  rw [txEvents_halfTrace]
  simp only [List.cons_append, List.nil_append, latchedAfter]
  generalize (b &&& 0xF0 ||| staticBits 0 bl ||| 0x04) = x1 at *
  generalize (b &&& 0xF0 ||| staticBits 0 bl) = x2 at *
  cases prev with
  | none => simp [h1, h2, n1, n3]
  | some p => simp [h1, h2, n1, n3, hp p.1 p.2 rfl]

/-- The nibbles `DEFINE_GLYPH` latches (R200). -/
theorem latched_glyphTrace (c : Cfg) (bl : Line) (a : Byte) (g : Payload) :
    latched (glyphTrace c bl a g) =
      ([((0 : Line), hiNibble ((0x40 : Byte) ||| ((a &&& 0x07) <<< 3))),
        ((0 : Line), loNibble ((0x40 : Byte) ||| ((a &&& 0x07) <<< 3)))] : List (Line × Nibble)) ++
      (List.range 8).flatMap (fun k =>
        [((1 : Line), hiNibble ((g >>> (8 * k)).setWidth 8)), (1, loNibble ((g >>> (8 * k)).setWidth 8))]) ++
      [(0, 8), (0, 0)] := by
  simp only [latched, glyphTrace, commandTrace, dataTrace, txEvents_append, List.range, List.range.loop,
    List.flatMap_cons, List.flatMap_nil, List.append_assoc, List.nil_append]
  rw [latchedAfter_instrTrace _ _ _ _ _ _ low_none]
  iterate 8 rw [latchedAfter_instrTrace _ _ _ _ _ _ (low_lastByte _ _ _ _)]
  rw [latchedAfter_instrTrace_last _ _ _ _ _ (low_lastByte _ _ _ _)]
  rfl

/-! ### Two nibbles at the controller -/

/-- In 4-bit mode with no nibble pending, the two nibbles of a byte are the byte (R70, R82). -/
theorem Controller.foldl_pair (k : Controller) (b : Byte) (r : Line) (hm : k.mode = some .four) (hh : k.high = none)
    (rest : List (Line × Nibble)) :
    List.foldl Controller.nibble k ((r, hiNibble b) :: (r, loNibble b) :: rest) =
      List.foldl Controller.nibble (k.byte r b) rest := by
  obtain ⟨mode, primes, high, e, d, sp, ad⟩ := k
  simp only at hm hh
  subst hm hh
  simp only [List.foldl_cons, Controller.nibble, hiNibble_append_loNibble, if_true]

/-! ### Counts and sums -/

theorem waitSum_append (a b : List Event) : waitSum (a ++ b) = waitSum a + waitSum b := by
  simp [waitSum]

theorem waitSum_waitTrace (n : Units) : waitSum (waitTrace n) = n.toNat := by
  rw [waitSum, waitEvents_waitTrace]
  split <;> simp_all

theorem waitSum_instrTrace (c : Cfg) (rs bl : Line) (b : Byte) (t : Units) :
    waitSum (instrTrace c rs bl b t) = 2 * c.tEn.toNat + c.tGap.toNat + t.toNat := by
  have h : ∀ a v, waitSum [.tx a v] = 0 := fun _ _ => rfl
  simp only [instrTrace, waitSum_append, waitSum_waitTrace, h]
  omega

theorem waitSum_halfTrace (c : Cfg) (bl : Line) (b : Byte) (t : Units) :
    waitSum (halfTrace c bl b t) = c.tEn.toNat + t.toNat := by
  have h : ∀ a v, waitSum [.tx a v] = 0 := fun _ _ => rfl
  simp only [halfTrace, waitSum_append, waitSum_waitTrace, h]
  omega

theorem length_waitTrace {n : Units} (h : n ≠ 0) : (waitTrace n).length = 1 := by
  unfold waitTrace
  rw [if_neg h]
  rfl

/-! ### Whole pulses -/

theorem pulseScan_append (tEn : Units) (p : Pulse) (xs ys : List Event) :
    pulseScan tEn p (xs ++ ys) = (pulseScan tEn p xs).bind (fun q => pulseScan tEn q ys) := by
  induction xs generalizing p with
  | nil => rfl
  | cons x xs ih =>
    simp only [List.cons_append, pulseScan]
    split
    · exact ih _
    · rfl

theorem pulsesWhole_append {tEn : Units} {xs ys : List Event} (h1 : pulsesWhole tEn xs) (h2 : pulsesWhole tEn ys) :
    pulsesWhole tEn (xs ++ ys) := by
  unfold pulsesWhole at *
  rw [pulseScan_append, h1]
  exact h2

theorem pulsesWhole_waitTrace (tEn n : Units) : pulsesWhole tEn (waitTrace n) := by
  unfold waitTrace; split <;> rfl

/-- One nibble transmission is a whole pulse (R130). -/
theorem pulsesWhole_nibble (tEn : Units) (a : BusAddr) (b : Byte) (rs bl : Line) :
    pulsesWhole tEn ([.tx a ((b &&& 0xF0) ||| staticBits rs bl ||| 0x04)] ++ waitTrace tEn ++
      [.tx a ((b &&& 0xF0) ||| staticBits rs bl)]) := by
  have h1 := enBit_raised b rs bl
  have h2 := raised_cleared b rs bl
  unfold waitTrace
  generalize (b &&& 0xF0 ||| staticBits rs bl ||| 0x04) = x at *
  generalize (b &&& 0xF0 ||| staticBits rs bl) = y at *
  subst h2
  by_cases h : tEn = 0
  · subst h
    simp [pulsesWhole, pulseScan, pulseNext, h1]
  · have h' : tEn ≠ 0#16 := h
    simp [pulsesWhole, h', pulseScan, pulseNext, h1]

theorem pulsesWhole_instrTrace (c : Cfg) (rs bl : Line) (b : Byte) (t : Units) :
    pulsesWhole c.tEn (instrTrace c rs bl b t) := by
  have h1 := pulsesWhole_nibble c.tEn c.addr b rs bl
  have h2 := pulsesWhole_nibble c.tEn c.addr (b <<< 4) rs bl
  have h := pulsesWhole_append (pulsesWhole_append (pulsesWhole_append h1 (pulsesWhole_waitTrace _ c.tGap)) h2)
    (pulsesWhole_waitTrace _ t)
  simpa [instrTrace] using h

theorem pulsesWhole_halfTrace (c : Cfg) (bl : Line) (b : Byte) (t : Units) :
    pulsesWhole c.tEn (halfTrace c bl b t) :=
  pulsesWhole_append (pulsesWhole_nibble c.tEn c.addr b 0 bl) (pulsesWhole_waitTrace _ _)

end Sys2Proof.Machine
end

