-- ==== Sys2Proof/Laws/Observer.lean ====
section
/-! SUPPORT. What the watcher of the controller works out from a pulse, a whole transmission and a wait, when every delay it
needs is kept (R143, R266, R272, R278). -/

namespace Sys2Proof.Machine

@[simp] theorem Observer.watch_nil (need : Needs) (o : Observer) : o.watch need [] = o := rfl

@[simp] theorem Observer.watch_cons (need : Needs) (o : Observer) (x : Sight) (xs : List Sight) :
    o.watch need (x :: xs) = (o.see need x).watch need xs := rfl

theorem Observer.watch_append (need : Needs) (o : Observer) (xs ys : List Sight) :
    o.watch need (xs ++ ys) = (o.watch need xs).watch need ys := List.foldl_append

theorem Observer.complete_of_ne {o : Observer} (h : o.stage ≠ .starting) : o.complete = o := by
  unfold Observer.complete
  rw [if_neg (fun c => h c.1)]

theorem Observer.complete_of_entry {o : Observer} (h : o.ctrl.entry = none) : o.complete = o := by
  unfold Observer.complete
  rw [if_neg (fun c => c.2.2.2.2.1 h)]

theorem Observer.complete_due {o : Observer} (h : o.waited < o.due) : o.complete = o := by
  unfold Observer.complete
  rw [if_neg (fun c => Nat.not_le.2 h c.2.2.2.2.2)]

theorem Observer.known_ready {o : Observer} (h : o.stage = .ready) : o.known = o.ctrl := if_pos h

theorem Observer.known_unknown {o : Observer} (h : o.stage ≠ .ready) : o.known = Controller.unknown := if_neg h

theorem Observer.accepted_ready {o : Observer} {i : Instr} (h : o.stage = .ready) (hi : i ≠ .init) :
    o.accepted i = o := by
  unfold Observer.accepted
  rw [if_neg hi, if_neg (by rw [h]; decide)]

/-- A micro-step shows the watcher the first of the pending events. -/
theorem pending_perform (s : State) :
    s.pending.map Sight.event = s.headSight ++ s.perform.pending.map Sight.event := by
  cases h : s.seq with
  | nil => simp [State.perform, h, State.pending, State.headSight]
  | cons m ms =>
    simp [State.pending, State.headSight, h]

theorem Observer.atEnd_perform (need : Needs) (o : Observer) (s : State) :
    (o.watch need s.headSight).atEnd need s.perform = o.atEnd need s := by
  unfold Observer.atEnd
  conv_rhs => rw [pending_perform, Observer.watch_append]

/-- `complete` changes the stage only. -/
theorem Observer.complete_cases (o : Observer) :
    o.complete = o ∨ (o.stage = .starting ∧ o.complete = { o with stage := .ready }) := by
  unfold Observer.complete
  split
  · exact .inr ⟨(‹_ ∧ _›).1, rfl⟩
  · exact .inl rfl

/-- The pulse of one nibble (R130) and the wait after it, and the same when that wait is absent. -/
def pulseTrace (a : BusAddr) (x y : Byte) (tEn t : Units) : List Event :=
  [.tx a x] ++ waitTrace tEn ++ [.tx a y] ++ waitTrace t

theorem instrTrace_pulses (c : Cfg) (rs bl : Line) (b : Byte) (t : Units) :
    instrTrace c rs bl b t =
      pulseTrace c.addr ((b &&& 0xF0) ||| staticBits rs bl ||| 0x04) ((b &&& 0xF0) ||| staticBits rs bl) c.tEn c.tGap ++
      pulseTrace c.addr (((b <<< 4) &&& 0xF0) ||| staticBits rs bl ||| 0x04)
        (((b <<< 4) &&& 0xF0) ||| staticBits rs bl) c.tEn t := by
  simp [instrTrace, pulseTrace]

theorem halfTrace_pulse (c : Cfg) (bl : Line) (b : Byte) (t : Units) :
    halfTrace c bl b t =
      pulseTrace c.addr ((b &&& 0xF0) ||| staticBits 0 bl ||| 0x04) ((b &&& 0xF0) ||| staticBits 0 bl) c.tEn t := rfl

/-- A wait of the engine, present or not, is time that passes; when nothing completes by it, only the clocks move. -/
theorem Observer.watch_waitTrace (need : Needs) (o : Observer) (n : Units)
    (h : o.stage ≠ .starting ∨ o.ctrl.entry = none) :
    o.watch need ((waitTrace n).map Sight.event) =
      { o with waited := o.waited + n.toNat, awaiting := o.awaiting - n.toNat } := by
  unfold waitTrace
  split
  · subst n
    rfl
  · show Observer.complete { o with waited := o.waited + n.toNat, awaiting := o.awaiting - n.toNat } = _
    rcases h with h | h
    · exact Observer.complete_of_ne h
    · exact Observer.complete_of_entry h

/-- The state of knowledge in which a nibble `p` is simply received: initialised, and `p` leaves a known mode; or in the
middle of an `INIT`, and `p` is not its last. -/
def Observer.Receives (o : Observer) (p : Line × Nibble) : Prop :=
  (o.stage = .ready ∧ (o.ctrl.nibble p).mode ≠ none) ∨
  (o.stage = .starting ∧ o.ctrl.entry = none ∧ (o.ctrl.nibble p).entry = none)

/-- Enable rises after the delay that was due, and the width of the pulse passes. -/
theorem Observer.watch_raised {need : Needs} {o : Observer} {a : BusAddr} {x : Byte} {tEn : Units} (hx : enBit x = 1)
    (hd : o.due ≤ o.waited) (ha : o.awaiting = 0) (hq : o.stage ≠ .starting ∨ o.ctrl.entry = none) :
    o.watch need (([Event.tx a x] ++ waitTrace tEn).map Sight.event) =
      { o with waited := tEn.toNat, line := some (a, x) } := by
  have h1 : o.watch need ([Event.tx a x].map Sight.event) = { o with waited := 0, line := some (a, x) } := by
    show o.byte need a x = _
    unfold Observer.byte
    rw [if_pos hx, Observer.rise, if_neg (by simp only [ha]; omega)]
  rw [List.map_append, Observer.watch_append, h1,
    Observer.watch_waitTrace need { o with waited := 0, line := some (a, x) } tEn hq]
  simp [ha]

/-- Enable falls: the nibble is latched. -/
theorem Observer.see_lowered {need : Needs} {o : Observer} {a : BusAddr} {x y : Byte} (hl : o.line = some (a, x))
    (hx : enBit x = 1) (hy : enBit y = 0) :
    o.see need (.event (.tx a y)) = { (o.fall need (rsBit y, hiNibble y)) with line := some (a, y) } := by
  show o.byte need a y = _
  unfold Observer.byte
  rw [if_neg (by rw [hy]; decide), hl]
  simp only [hx, and_self, if_true]

/-- A nibble that is simply received. -/
theorem Observer.fall_receives {need : Needs} {o : Observer} {p : Line × Nibble} (h : o.Receives p)
    (he : need.en ≤ o.waited) : o.fall need p = o.take need p := by
  unfold Observer.fall
  rcases h with ⟨h1, h2⟩ | ⟨h1, -, h3⟩
  · rw [h1]
    exact if_neg (by simp only [h2, or_false]; omega)
  · rw [h1]
    simp only
    rw [if_neg (by omega), Observer.complete_of_entry h3]

/-- A pulse whose delays are kept hands its nibble to the controller (R82, R278). -/
theorem Observer.watch_pulse {need : Needs} {o : Observer} {a : BusAddr} {x y : Byte} {tEn t : Units}
    (hx : enBit x = 1) (hy : enBit y = 0) (hd : o.due ≤ o.waited) (ha : o.awaiting = 0) (he : need.en ≤ tEn.toNat)
    (hr : o.Receives (rsBit y, hiNibble y)) :
    o.watch need ((pulseTrace a x y tEn t).map Sight.event) =
      { o with
        ctrl := o.ctrl.nibble (rsBit y, hiNibble y), due := need.after o.ctrl (rsBit y, hiNibble y)
        waited := t.toNat, line := some (a, y) } := by
  have hq : o.stage ≠ .starting ∨ o.ctrl.entry = none :=
    hr.elim (fun h => .inl (by rw [h.1]; decide)) (fun h => .inr h.2.1)
  have hr' : ({ o with waited := tEn.toNat, line := some (a, x) } : Observer).Receives (rsBit y, hiNibble y) := hr
  rw [pulseTrace, List.map_append, List.map_append, Observer.watch_append, Observer.watch_append,
    Observer.watch_raised hx hd ha hq, List.map_cons, Observer.watch_cons, Observer.see_lowered rfl hx hy,
    Observer.fall_receives hr' he, List.map_nil, Observer.watch_nil, Observer.watch_waitTrace]
  · simp [Observer.take, ha]
  · exact hr.elim (fun h => .inl (by simp only [Observer.take, h.1]; decide)) (fun h => .inr h.2.2)

/-- The last nibble of an `INIT`, and the wait it needs: `INIT` has completed (R150, R272). -/
theorem Observer.watch_pulse_last {need : Needs} {o : Observer} {a : BusAddr} {x y : Byte} {tEn t : Units}
    (hx : enBit x = 1) (hy : enBit y = 0) (hd : o.due ≤ o.waited) (ha : o.awaiting = 0) (he : need.en ≤ tEn.toNat)
    (hs : o.stage = .starting) (h0 : o.ctrl.entry = none)
    (hm : (o.ctrl.nibble (rsBit y, hiNibble y)).mode = some .four)
    (hh : (o.ctrl.nibble (rsBit y, hiNibble y)).high = none)
    (h1 : (o.ctrl.nibble (rsBit y, hiNibble y)).disp ≠ none)
    (h2 : (o.ctrl.nibble (rsBit y, hiNibble y)).entry ≠ none)
    (ht : need.after o.ctrl (rsBit y, hiNibble y) ≤ t.toNat) :
    o.watch need ((pulseTrace a x y tEn t).map Sight.event) =
      { o with
        stage := .ready
        ctrl := o.ctrl.nibble (rsBit y, hiNibble y), due := need.after o.ctrl (rsBit y, hiNibble y)
        waited := t.toNat, line := some (a, y) } := by
  have hf : Observer.fall need (rsBit y, hiNibble y) { o with waited := tEn.toNat, line := some (a, x) } =
      Observer.complete (Observer.take need (rsBit y, hiNibble y)
        { o with waited := tEn.toNat, line := some (a, x) }) := by
    unfold Observer.fall
    rw [hs]
    simp only
    rw [if_neg (by omega)]
  rw [pulseTrace, List.map_append, List.map_append, Observer.watch_append, Observer.watch_append,
    Observer.watch_raised hx hd ha (.inr h0), List.map_cons, Observer.watch_cons, Observer.see_lowered rfl hx hy, hf,
    List.map_nil, Observer.watch_nil]
  unfold Observer.complete
  simp only [Observer.take, hs, hm, hh, h1, h2, ne_eq, not_false_iff, true_and]
  split
  · rw [Observer.watch_waitTrace _ _ _ (.inl (fun h => Stage.noConfusion h))]
    simp [ha]
  · rename_i hw
    unfold waitTrace
    split
    · subst t
      exact absurd ht hw
    · show Observer.complete _ = _
      unfold Observer.complete
      simp only [hm, hh, h1, h2, ne_eq, not_false_iff, true_and, Nat.zero_add, ht, if_true]
      simp [ha]

/-! ### What each kind of byte does to the controller's registers (R92) -/

theorem Controller.byte_data (k : Controller) (b : Byte) : k.byte 1 b = { k with addr := none } := rfl

theorem Controller.byte_display (k : Controller) (d : BitVec 3) :
    k.byte 0 (0x08 ||| d.setWidth 8) = { k with disp := some d } := by
  have h : ∀ d : BitVec 3, let b := (0x08 : Byte) ||| d.setWidth 8
      b.getLsbD 7 = false ∧ b.getLsbD 6 = false ∧ b.getLsbD 5 = false ∧ b.getLsbD 4 = false ∧ b.getLsbD 3 = true ∧
        b.extractLsb' 0 3 = d := by decide
  obtain ⟨h7, h6, h5, h4, h3, hd⟩ := h d
  unfold Controller.byte
  rw [if_neg (by decide), if_neg (by rw [h7]; decide), if_neg (by rw [h6]; decide), if_neg (by rw [h5]; decide),
    if_neg (by rw [h4]; decide), if_pos h3, hd]

theorem Controller.byte_entryMode (k : Controller) (e : BitVec 2) :
    k.byte 0 (0x04 ||| e.setWidth 8) = { k with entry := some e } := by
  have h : ∀ e : BitVec 2, let b := (0x04 : Byte) ||| e.setWidth 8
      b.getLsbD 7 = false ∧ b.getLsbD 6 = false ∧ b.getLsbD 5 = false ∧ b.getLsbD 4 = false ∧ b.getLsbD 3 = false ∧
        b.getLsbD 2 = true ∧ b.extractLsb' 0 2 = e := by decide
  obtain ⟨h7, h6, h5, h4, h3, h2, he⟩ := h e
  unfold Controller.byte
  rw [if_neg (by decide), if_neg (by rw [h7]; decide), if_neg (by rw [h6]; decide), if_neg (by rw [h5]; decide),
    if_neg (by rw [h4]; decide), if_neg (by rw [h3]; decide), if_pos h2, he]

theorem Controller.byte_ddram (k : Controller) (b : Byte) (h : 0x80 ≤ b) :
    k.byte 0 b = { k with space := some .ddram, addr := some (b.extractLsb' 0 7) } := by
  have h7 : ∀ b : Byte, 0x80 ≤ b → b.getLsbD 7 = true := by decide
  simp [Controller.byte, h7 b h]

/-! ### A whole transmission -/

/-- A whole byte sent to an initialised controller (R70, R83, R143): it is received, and the controller is ready again when
the wait after it is the one it needs. -/
theorem Observer.watch_instrTrace {need : Needs} {o : Observer} {c : Cfg} {rs bl : Line} {b : Byte} {t : Units}
    (h : o.Ready) (hn : need.metBy c) (hm : (o.ctrl.byte rs b).mode = some .four)
    (hh : (o.ctrl.byte rs b).high = none)
    (ht : (if rs = 1 then need.write else if hiNibble b = 0 ∧ loNibble b < 4 then need.long else need.settle) ≤ t.toNat) :
    let k := o.watch need ((instrTrace c rs bl b t).map Sight.event)
    k.Ready ∧ k.ctrl = o.ctrl.byte rs b := by
  obtain ⟨stage, ctrl, line, waited, due, awaiting⟩ := o
  obtain ⟨h1, h2, h3, h4, h5, h6⟩ := h
  simp only at h1 h2 h3 h4 h5 h6
  obtain ⟨mode, primes, high, e, d, sp, ad⟩ := ctrl
  simp only at h2 h3
  subst h1 h2 h3 h6
  have n1 := hiNibble_high b rs bl
  have n2 := hiNibble_low b rs bl
  have n3 := rsBit_lowered b rs bl
  have n4 := rsBit_lowered (b <<< 4) rs bl
  intro k
  have hk : k =
      { stage := .ready
        ctrl := Controller.nibble (Controller.nibble ⟨some .four, primes, none, e, d, sp, ad⟩ (rs, hiNibble b))
          (rs, loNibble b)
        line := some (c.addr, ((b <<< 4) &&& 0xF0) ||| staticBits rs bl)
        waited := t.toNat
        due := need.after (Controller.nibble ⟨some .four, primes, none, e, d, sp, ad⟩ (rs, hiNibble b)) (rs, loNibble b)
        awaiting := 0 } := by
    show Observer.watch need _ ((instrTrace c rs bl b t).map Sight.event) = _
    rw [instrTrace_pulses, List.map_append, Observer.watch_append,
      Observer.watch_pulse (enBit_raised b rs bl) (enBit_lowered b rs bl) (by exact h5) rfl hn.1
        (.inl ⟨rfl, by simp [Controller.nibble]⟩), n1, n3,
      Observer.watch_pulse (enBit_raised (b <<< 4) rs bl) (enBit_lowered (b <<< 4) rs bl)
        (by simpa [Needs.after] using hn.2.1) rfl hn.1
        (.inl ⟨rfl, by rw [n2, n4]; simp only [Controller.nibble, if_true, hiNibble_append_loNibble]; rw [hm]; simp⟩),
      n2, n4]
  have hc : k.ctrl = Controller.byte ⟨some .four, primes, none, e, d, sp, ad⟩ rs b := by
    rw [hk]
    simp only [Controller.nibble, if_true, hiNibble_append_loNibble]
  refine ⟨⟨?_, ?_, ?_, ?_, ?_, ?_⟩, hc⟩
  · rw [hk]
  · rw [hc, hm]
  · rw [hc, hh]
  · rw [hk]
    intro a v hv
    cases hv
    exact enBit_lowered _ _ _
  · rw [hk]
    simp only [Needs.after, Controller.nibble]
    exact ht
  · rw [hk]

end Sys2Proof.Machine
end

