-- ==== Sys2Proof/Laws/PerInstr.lean ====
section
/-! SUPPORT. A statement for every command, as syntax. -/

namespace Sys2Proof.Laws.OpcodeLegal

/-- The opcode of the command's word is one of the 20 legal ones, 0x01 to 0x14 (R104, R106). -/
def Statement (i : Instr) : Prop := 0x01 ≤ opField (encode i) ∧ opField (encode i) ≤ 0x14

theorem init : Statement .init := by
  simp only [Statement, encode, opField_packWord]; decide

theorem clear : Statement .clear := by
  simp only [Statement, encode, opField_packWord]; decide

theorem home : Statement .home := by
  simp only [Statement, encode, opField_packWord]; decide

theorem leftToRight : Statement .leftToRight := by
  simp only [Statement, encode, opField_packWord]; decide

theorem rightToLeft : Statement .rightToLeft := by
  simp only [Statement, encode, opField_packWord]; decide

theorem autoscrollOn : Statement .autoscrollOn := by
  simp only [Statement, encode, opField_packWord]; decide

theorem autoscrollOff : Statement .autoscrollOff := by
  simp only [Statement, encode, opField_packWord]; decide

theorem displayOn : Statement .displayOn := by
  simp only [Statement, encode, opField_packWord]; decide

theorem displayOff : Statement .displayOff := by
  simp only [Statement, encode, opField_packWord]; decide

theorem cursorOn : Statement .cursorOn := by
  simp only [Statement, encode, opField_packWord]; decide

theorem cursorOff : Statement .cursorOff := by
  simp only [Statement, encode, opField_packWord]; decide

theorem blinkOn : Statement .blinkOn := by
  simp only [Statement, encode, opField_packWord]; decide

theorem blinkOff : Statement .blinkOff := by
  simp only [Statement, encode, opField_packWord]; decide

theorem scrollLeft : Statement .scrollLeft := by
  simp only [Statement, encode, opField_packWord]; decide

theorem scrollRight : Statement .scrollRight := by
  simp only [Statement, encode, opField_packWord]; decide

theorem defineGlyph (a : Byte) (g : Payload) : Statement (.defineGlyph a g) := by
  simp only [Statement, encode, opField_packWord]; decide

theorem setCursor (a b : Byte) : Statement (.setCursor a b) := by
  simp only [Statement, encode, opField_packWord]; decide

theorem writeChar (a : Byte) : Statement (.writeChar a) := by
  simp only [Statement, encode, opField_packWord]; decide

theorem backlightOn : Statement .backlightOn := by
  simp only [Statement, encode, opField_packWord]; decide

theorem backlightOff : Statement .backlightOff := by
  simp only [Statement, encode, opField_packWord]; decide

end Sys2Proof.Laws.OpcodeLegal
end

