-- ==== Sys2Proof/Tests/Slice0.lean ====
section
/-! SUPPORT. Tests. Expected values are the spec's own: the opcode table, the examples of R109, the vectors of
spec/95_test_vectors.md. The witnesses at the end meet the hypotheses of the statements. -/

namespace Sys2Proof.Tests

open Sys2Proof Sys2Proof.Machine

/-! ### Helpers -/

/-- The events of a command accepted in `s`. -/
def trace (i : Instr) (s : State) : List Event :=
  match exec i s with
  | .next t    => t.pending
  | .fault _   => []
  | .refused _ => []

/-- The events of one full transmission with the default waits: four bytes and the settle wait. -/
def four (p q r s : Byte) (settle : Units) : List Event :=
  [.tx 0x27 p, .wait 1, .tx 0x27 q, .tx 0x27 r, .wait 1, .tx 0x27 s, .wait settle]

/-- Reset with given flag registers. -/
def flags (entry : BitVec 2) (disp : BitVec 3) : State := { State.reset with entry := entry, disp := disp }

/-- Reset with the backlight on. -/
def lit : State := { State.reset with bl := 1 }

/-- Reset with another geometry. -/
def sized (columns lines : Byte) : State :=
  { State.reset with cfg := { Cfg.default with colsCfg := columns, rowsCfg := lines } }

/-- A busy engine: one micro-step, and a last one after it. -/
def busy (a : Act) : State :=
  { State.reset with seq := [⟨⟨1, 0, 1, 0x41⟩, a⟩, ⟨⟨1, 0, 0, 0x41⟩, .tx 0x41⟩], lat := ⟨1, 0, 1, 0x41⟩, tmr := a.load }

/-- A cycle with nothing on the inputs. -/
def quiet : PortIn := ⟨false, false, false, 0, false⟩

/-! ### Decoding: words written out from the opcode table, ignored fields at ones -/

theorem test_decode_init : decode 0x01FFFFFFFFFFFFFFFFFFFF = .ok .init := by decide
theorem test_decode_clear : decode 0x02FFFFFFFFFFFFFFFFFFFF = .ok .clear := by decide
theorem test_decode_home : decode 0x03FFFFFFFFFFFFFFFFFFFF = .ok .home := by decide
theorem test_decode_leftToRight : decode 0x04FFFFFFFFFFFFFFFFFFFF = .ok .leftToRight := by decide
theorem test_decode_rightToLeft : decode 0x05FFFFFFFFFFFFFFFFFFFF = .ok .rightToLeft := by decide
theorem test_decode_autoscrollOn : decode 0x06FFFFFFFFFFFFFFFFFFFF = .ok .autoscrollOn := by decide
theorem test_decode_autoscrollOff : decode 0x07FFFFFFFFFFFFFFFFFFFF = .ok .autoscrollOff := by decide
theorem test_decode_displayOn : decode 0x08FFFFFFFFFFFFFFFFFFFF = .ok .displayOn := by decide
theorem test_decode_displayOff : decode 0x09FFFFFFFFFFFFFFFFFFFF = .ok .displayOff := by decide
theorem test_decode_cursorOn : decode 0x0AFFFFFFFFFFFFFFFFFFFF = .ok .cursorOn := by decide
theorem test_decode_cursorOff : decode 0x0BFFFFFFFFFFFFFFFFFFFF = .ok .cursorOff := by decide
theorem test_decode_blinkOn : decode 0x0CFFFFFFFFFFFFFFFFFFFF = .ok .blinkOn := by decide
theorem test_decode_blinkOff : decode 0x0DFFFFFFFFFFFFFFFFFFFF = .ok .blinkOff := by decide
theorem test_decode_scrollLeft : decode 0x0EFFFFFFFFFFFFFFFFFFFF = .ok .scrollLeft := by decide
theorem test_decode_scrollRight : decode 0x0FFFFFFFFFFFFFFFFFFFFF = .ok .scrollRight := by decide
theorem test_decode_defineGlyph : decode 0x1003FF0000040E1F1F0A00 = .ok (.defineGlyph 0x03 0x0000040E1F1F0A00) := by decide
theorem test_decode_setCursor : decode 0x110501FFFFFFFFFFFFFFFF = .ok (.setCursor 0x05 0x01) := by decide
theorem test_decode_writeChar : decode 0x1241FFFFFFFFFFFFFFFFFF = .ok (.writeChar 0x41) := by decide
theorem test_decode_backlightOn : decode 0x13FFFFFFFFFFFFFFFFFFFF = .ok .backlightOn := by decide
theorem test_decode_backlightOff : decode 0x14FFFFFFFFFFFFFFFFFFFF = .ok .backlightOff := by decide

/-- V-RSV. -/
theorem test_decode_reserved :
    decode 0 = .error (.reserved 0x00) ∧ decode 0x1500000000000000000000 = .error (.reserved 0x15) ∧
    decode 0xFFFFFFFFFFFFFFFFFFFFFF = .error (.reserved 0xFF) := by decide

theorem test_table_word : decodeTableWord 88 0x1241000000000000000000 = some (.writeChar 0x41) := by decide

/-! ### WellFormed: an ill-formed configuration for each check -/

theorem test_default_wf : Cfg.default.wf = true ∧ Cfg.default.waitsPresent = true := by decide

/-- R8: `T_LONG` not above `T_SETTLE`. -/
theorem test_longSettles_refuses_settle : { Cfg.default with tLong := 37 }.longSettles = false := by decide

/-- R8: `T_LONG` not above `T_WRITE`. -/
theorem test_longSettles_refuses_write : { Cfg.default with tWrite := 1600 }.longSettles = false := by decide

/-- R9: the primes' waits must not increase. -/
theorem test_primesDecrease_refuses :
    { Cfg.default with tInit2 := 4201 }.primesDecrease = false ∧
    { Cfg.default with tInit3 := 151 }.primesDecrease = false := by decide

/-- R8, R9: either fault of the durations is refused by the whole check. -/
theorem test_wf_refuses :
    { Cfg.default with tLong := 37 }.wf = false ∧ { Cfg.default with tInit3 := 151 }.wf = false := by decide

/-- R38: a duration of 0 other than `T_GAP`. -/
theorem test_waitsPresent_refuses :
    { Cfg.default with tEn := 0 }.waitsPresent = false ∧ { Cfg.default with tSettle := 0 }.waitsPresent = false ∧
    { Cfg.default with tLong := 0 }.waitsPresent = false ∧ { Cfg.default with tWrite := 0 }.waitsPresent = false ∧
    { Cfg.default with tInit1 := 0 }.waitsPresent = false ∧ { Cfg.default with tInit2 := 0 }.waitsPresent = false ∧
    { Cfg.default with tInit3 := 0 }.waitsPresent = false := by decide

/-- R203: a well-formed geometry and one that is not. -/
theorem test_geometry : geometryWf (sized 44 4).cfg = true ∧ geometryWf (sized 45 4).cfg = false := by decide

/-! ### The encoder (V-FRAME) -/

theorem test_frame_high : frameHigh ⟨1, 0, 0, 0⟩ 1 0xA5 = 0xA9 := by decide

theorem test_frame_low : frameLow ⟨0, 0, 1, 0⟩ 0 0x28 = 0x84 := by decide

/-! ### One command each -/

/-- V-INIT-1: the first eleven bytes' waits and bytes of the handshake. -/
theorem test_init_handshake :
    (trace .init State.reset).take 16 =
      [.tx 0x27 0x34, .wait 1, .tx 0x27 0x30, .wait 4200, .tx 0x27 0x34, .wait 1, .tx 0x27 0x30, .wait 150] ++
      [.tx 0x27 0x34, .wait 1, .tx 0x27 0x30, .wait 37, .tx 0x27 0x24, .wait 1, .tx 0x27 0x20, .wait 37] := by decide

/-- V-INIT-3: nothing is cleared. -/
theorem test_init_keeps_flags :
    (trace .init (flags 0b01 0b010)).drop 16 =
      four 0x24 0x20 0x84 0x80 37 ++ four 0x04 0x00 0xE4 0xE0 37 ++ four 0x04 0x00 0x14 0x10 1600 ++
      four 0x04 0x00 0x74 0x70 37 := by decide

/-- V-CLR-3. -/
theorem test_clear : trace .clear lit = four 0x0C 0x08 0x1C 0x18 1600 := by decide

/-- V-CLR-2. -/
theorem test_home : trace .home State.reset = four 0x04 0x00 0x24 0x20 1600 := by decide

/-- V-ENT-1. -/
theorem test_leftToRight : trace .leftToRight (flags 0b00 0) = four 0x04 0x00 0x64 0x60 37 := by decide

/-- V-ENT-6. -/
theorem test_rightToLeft : trace .rightToLeft (flags 0b11 0) = four 0x04 0x00 0x54 0x50 37 := by decide

/-- V-ENT-5. -/
theorem test_autoscrollOn : trace .autoscrollOn (flags 0b10 0) = four 0x04 0x00 0x74 0x70 37 := by decide

/-- V-ENT-7. -/
theorem test_autoscrollOff : trace .autoscrollOff (flags 0b01 0) = four 0x04 0x00 0x44 0x40 37 := by decide

/-- V-DSP-1. -/
theorem test_displayOn : trace .displayOn (flags 0 0b000) = four 0x04 0x00 0xC4 0xC0 37 := by decide

/-- V-DSP-10. -/
theorem test_displayOff : trace .displayOff (flags 0 0b110) = four 0x04 0x00 0xA4 0xA0 37 := by decide

/-- V-DSP-8. -/
theorem test_cursorOn : trace .cursorOn (flags 0 0b101) = four 0x04 0x00 0xF4 0xF0 37 := by decide

/-- The example of R183. -/
theorem test_cursorOff : trace .cursorOff (flags 0 0b111) = four 0x04 0x00 0xD4 0xD0 37 := by decide

/-- V-DSP-7. -/
theorem test_blinkOn : trace .blinkOn (flags 0 0b100) = four 0x04 0x00 0xD4 0xD0 37 := by decide

/-- V-DSP-9. -/
theorem test_blinkOff : trace .blinkOff (flags 0 0b111) = four 0x04 0x00 0xE4 0xE0 37 := by decide

/-- V-SHF-3. -/
theorem test_scrollLeft : trace .scrollLeft lit = four 0x1C 0x18 0x8C 0x88 37 := by decide

/-- V-SHF-2. -/
theorem test_scrollRight : trace .scrollRight State.reset = four 0x14 0x10 0xC4 0xC0 37 := by decide

/-- V-GLYPH-2: slot 255 acts as slot 7; the first transmission. -/
theorem test_defineGlyph_slot :
    (trace (.defineGlyph 255 0) State.reset).take 7 = four 0x74 0x70 0x84 0x80 37 := by decide

/-- V-GLYPH-1: the second, third and last data bytes and the repositioning. -/
theorem test_defineGlyph_bytes :
    (trace (.defineGlyph 3 0x0000040E1F1F0A00) State.reset).drop 14 =
      four 0x05 0x01 0xA5 0xA1 37 ++ four 0x15 0x11 0xF5 0xF1 37 ++ four 0x15 0x11 0xF5 0xF1 37 ++
      four 0x05 0x01 0xE5 0xE1 37 ++ four 0x05 0x01 0x45 0x41 37 ++ four 0x05 0x01 0x05 0x01 37 ++
      four 0x05 0x01 0x05 0x01 37 ++ four 0x84 0x80 0x04 0x00 37 := by decide

/-- V-CUR-5 and V-CUR-7: both coordinates clamped; row 3. -/
theorem test_setCursor_clamps :
    trace (.setCursor 200 7) State.reset = four 0xC4 0xC0 0xF4 0xF0 37 ∧
    trace (.setCursor 19 3) (sized 20 4) = four 0xE4 0xE0 0x74 0x70 37 := by decide

/-- V-CUR-11, V-CUR-12 and V-CUR-13: geometry 0 x 0, rows above 4, and the sum modulo 128. -/
theorem test_setCursor_geometry :
    trace (.setCursor 5 5) (sized 0 0) = four 0x84 0x80 0x04 0x00 37 ∧
    trace (.setCursor 0 8) (sized 16 9) = four 0xD4 0xD0 0x44 0x40 37 ∧
    trace (.setCursor 254 3) (sized 255 4) = four 0xD4 0xD0 0x24 0x20 37 := by decide

/-- V-CHR-9. -/
theorem test_writeChar : trace (.writeChar 0x41) lit = four 0x4D 0x49 0x1D 0x19 37 := by decide

/-- V-CHR-11: with `T_GAP = 37` and `T_WRITE = 41`. -/
theorem test_writeChar_gap :
    trace (.writeChar 0x41) { State.reset with cfg := { Cfg.default with tGap := 37, tWrite := 41 } } =
      [.tx 0x27 0x45, .wait 1, .tx 0x27 0x41, .wait 37, .tx 0x27 0x15, .wait 1, .tx 0x27 0x11, .wait 41] := by decide

/-- V-BL-1. -/
theorem test_backlightOn : trace .backlightOn State.reset = [.tx 0x27 0x08] := by decide

/-- V-BL-2. -/
theorem test_backlightOff : trace .backlightOff lit = [.tx 0x27 0x00] := by decide

/-! ### The observer, reset, the ports -/

/-- V-INIT-1: the nibbles of INIT. -/
theorem test_latched_init :
    latched (trace .init State.reset) =
      [(0, 3), (0, 3), (0, 3), (0, 2), (0, 2), (0, 8), (0, 0), (0, 0xC), (0, 0), (0, 1), (0, 0), (0, 6)] := by decide

/-- Reset's memory is in canonical form. -/
theorem test_reset_memory : State.reset.bus.wf := by decide

/-- R62: a second byte to the same address replaces the first, and addresses stay in order. -/
theorem test_memory_order : Memory.write (Memory.write (Memory.write [] 39 1) 7 2) 39 3 = [(7, 2), (39, 3)] := by decide

/-- V-RSV: a reserved word is refused. -/
theorem test_step_refuses_reserved :
    (match step { State.reset with inputs := [.command 0] } with
      | .refused (.reservedOpcode op) => op == 0
      | _ => false) = true := by decide

/-- R87: a `WAIT(1)` is not over at its first strobe. -/
theorem test_wait_counts_two_strobes :
    ((busy (.wait 1)).advance { quiet with unitTick := true }).seq = (busy (.wait 1)).seq ∧
    (((busy (.wait 1)).advance { quiet with unitTick := true }).advance { quiet with unitTick := true }).seq =
      (busy (.wait 1)).seq.tail := by decide

/-! ### Text (R108 to R112) -/

theorem test_text_clear : assemble ["CLEAR ; wipe".toList] = .ok [0x0200000000000000000000] := by decide

theorem test_text_setCursor :
    assemble ["SET_CURSOR 5, 1".toList, "setCursor 0x05, 0b1".toList] =
      .ok [0x1105010000000000000000, 0x1105010000000000000000] := by decide

theorem test_text_writeChar : assemble ["WRITE_CHAR 'A'".toList] = .ok [0x1241000000000000000000] := by decide

theorem test_text_defineGlyph :
    assemble ["DEFINE_GLYPH 3, 0x00, 0x0A, 0x1F, 0x1F, 0x0E, 0x04, 0x00, 0x00".toList] =
      .ok [0x1003000000040E1F1F0A00] := by decide

theorem test_text_print :
    assemble ["PRINT \"Hi\"".toList, "PRINT \"\"".toList] = .ok [0x1248000000000000000000, 0x1269000000000000000000] := by
  decide

theorem test_text_refuses :
    assemble ["SET_CURSOR 256, 1".toList] = .error .badOperands ∧
    assemble ["BEEP".toList] = .error (.unknownName "BEEP".toList) := by decide

/-! ### Witnesses: the hypotheses of each statement, met together -/

/-- A command of each operand form is well formed, with its operands at the ends of their ranges. -/
theorem witness_DecodeOfEncodeIsIdentity :
    Instr.init.wf = true ∧ (Instr.writeChar 0xFF).wf = true ∧ (Instr.setCursor 0xFF 0x00).wf = true ∧
    (Instr.defineGlyph 0xFF 0xFFFFFFFFFFFFFFFF).wf = true := by decide

theorem witness_EncodeOfDecodeClearsOnlyIgnoredFields :
    decode 0x02FFFFFFFFFFFFFFFFFFFF = .ok .clear := by decide

/-- Two words of the format AB that differ in the ignored payload, and the last glyph bit. -/
theorem witness_IgnoredFieldsHaveNoEffect :
    (decode 0x1105010000000000000000 = .ok (.setCursor 5 1) ∧
      opField 0x110501FFFFFFFFFFFFFFFF = opField 0x1105010000000000000000 ∧
      aField 0x110501FFFFFFFFFFFFFFFF = aField 0x1105010000000000000000 ∧
      bField 0x110501FFFFFFFFFFFFFFFF = bField 0x1105010000000000000000 ∧
      (Instr.setCursor 5 1).format ≠ .ag) ∧
    7 < 8 := by decide

/-- The reserved opcodes at the ends of their ranges on an idle engine, in a step and in a cycle, and the legal ones at the
ends of theirs. -/
theorem witness_ReservedWordsAreRefused :
    (State.reset.withFetchWord 88 0).seq = [] ∧ (State.reset.withFetchWord 88 0).inputs = [.command 0] ∧
    ((portOut { quiet with cmdValid := true, cmdWord := 0 } State.reset).cmdReady = true ∧
      ({ quiet with cmdValid := true, cmdWord := 0 } : PortIn).cmdValid = true) ∧
    opField 0 = 0x00 ∧ 0x15 ≤ opField 0x1500000000000000000000 ∧ 0x15 ≤ opField 0xFF00000000000000000000 ∧
    (opField 0x0100000000000000000000 ≠ 0x00 ∧ opField 0x0100000000000000000000 < 0x15) ∧
    (opField 0x1400000000000000000000 ≠ 0x00 ∧ opField 0x1400000000000000000000 < 0x15) := by decide

theorem witness_InitRunsTheHandshake : lit.seq = [] := rfl

theorem witness_ClearAndHomeSendOneInstruction : lit.seq = [] := rfl

theorem witness_EntryModeCommandsUpdateAndResend : (flags 0b11 0).seq = [] := rfl

theorem witness_DisplayControlCommandsUpdateAndResend : (flags 0 0b111).seq = [] := rfl

theorem witness_ScrollCommandsSendFixedInstructions : lit.seq = [] := rfl

theorem witness_SetCursorSendsTheClampedAddress : (sized 255 4).seq = [] := rfl

theorem witness_WriteCharSendsTheByte : lit.seq = [] := rfl

theorem witness_DefineGlyphSendsTenInstructions :
    lit.seq = [] ∧ (0x08 : Byte).toNat % 8 = (0x00 : Byte).toNat % 8 ∧ (0xFF : Byte).toNat % 8 = (0x07 : Byte).toNat % 8 := by
  decide

theorem witness_BacklightCommandsWriteOneByte : lit.seq = [] := rfl

theorem witness_CommandsChangeOnlyWhatTheirRowNames :
    (flags 0b01 0b010).seq = [] ∧ (0 : Nat) ≠ (flags 0b01 0b010).cfg.addr.toNat ∧
    Instr.init ≠ .backlightOn ∧ Instr.init ≠ .backlightOff := by decide

/-- An idle engine with `HOME` on its command port. -/
def homeWaits : State := { State.reset with inputs := [.command 0x0300000000000000000000, .reset] }

theorem witness_StepRunsTheDecodedCommand :
    homeWaits.seq = [] ∧ homeWaits.inputs = .command 0x0300000000000000000000 :: [.reset] ∧
    decode 0x0300000000000000000000 = .ok .home := by decide

theorem witness_PlacedWordRunsNext :
    decodeTableWord 88 0x1441000000000000000000 = some .backlightOff ∧ decodeTableWord 88 0x11FFFF0000000000000000 =
      some (.setCursor 0xFF 0xFF) := by decide

/-- A busy engine with a command waiting. -/
def busyAsked : State := { busy (.tx 0x45) with inputs := [.command 0x0300000000000000000000] }

theorem witness_BusyEngineAcceptsNothing :
    busyAsked.seq ≠ [] ∧ busyAsked.inputs = .command 0x0300000000000000000000 :: [] := by decide

/-- With more micro-steps after the head, and with none; idle; and with a pass. -/
theorem witness_OneMicroStepPerStep :
    ((busy (.wait 37)).seq = ⟨⟨1, 0, 1, 0x41⟩, .wait 37⟩ :: [⟨⟨1, 0, 0, 0x41⟩, .tx 0x41⟩] ∧
      (busy (.wait 37)).inputs = []) ∧
    ((busy (.wait 37)).perform.seq = ⟨⟨1, 0, 0, 0x41⟩, .tx 0x41⟩ :: [] ∧ (busy (.wait 37)).perform.inputs = []) ∧
    (lit.seq = [] ∧ lit.inputs = []) ∧
    ({ busy (.wait 37) with inputs := [.pass, .reset] } : State).inputs = .pass :: [.reset] := by
  decide

/-- No input; a pass and then a held command; and as many passes as the operation has micro-steps before a reset. -/
theorem witness_OperationRunsToItsEnd :
    ((busy (.tx 0x45)).inputs = List.replicate 0 .pass ++ []) ∧
    (({ busy (.tx 0x45) with inputs := [.pass, .command 0x0300000000000000000000] } : State).inputs =
        List.replicate 1 .pass ++ [.command 0x0300000000000000000000]) ∧
    (({ busy (.tx 0x45) with inputs := [.pass, .pass, .reset] } : State).inputs = List.replicate 2 .pass ++ [.reset] ∧
      (busy (.tx 0x45)).seq.length ≤ 2) := by decide

theorem witness_AcceptanceLoadsWholeOperation : (flags 0b01 0b010).seq = [] := rfl

theorem witness_ProgramRunsAsTheTablesSay :
    ({ State.reset with inputs := programInputs [.init, .writeChar 0x48] } : State).seq = [] ∧
    ({ State.reset with inputs := programInputs [.init, .writeChar 0x48] } : State).inputs =
      programInputs [.init, .writeChar 0x48] := ⟨rfl, rfl⟩

theorem witness_IdleLatchesNeverReachTheTrace : lit.seq = [] := rfl

/-- A busy state that is no reset state meets the invariants and steps. -/
theorem busy_inv : (busy (.tx 0x45)).Inv where
  rwLow     := rfl
  idleLow   := by decide
  seqSound  := by
    intro m h
    fin_cases h <;> decide
  lastLow   := by
    intro m h
    cases h
    decide
  started   := by
    intro m h
    cases h
    decide
  outSound  := by
    intro e h
    cases h
  pastSound := by
    intro e h
    cases h
  busWf     := by decide

theorem witness_EveryStepKeepsTheInvariants :
    (busy (.tx 0x45)).Inv ∧ step (busy (.tx 0x45)) = .next (busy (.tx 0x45)).perform := ⟨busy_inv, rfl⟩

theorem witness_EveryCycleKeepsTheInvariants :
    (busy (.tx 0x45)).Inv ∧ cycle { quiet with txReady := true } (busy (.tx 0x45)) = .next (busy (.tx 0x45)).perform :=
  ⟨busy_inv, rfl⟩

/-- In the middle of an enable pulse: the raised byte is sent, the wait and the lowered byte are not. -/
def midPulse : State :=
  { busy (.wait 1) with out := [.tx 0x27 0x45], bus := [(0x27, 0x45)] }

theorem witness_EveryStepKeepsPulsesWhole :
    pulsesWhole midPulse.cfg.tEn midPulse.committed ∧ step midPulse = .next midPulse.perform :=
  ⟨by unfold pulsesWhole; decide, rfl⟩

theorem witness_ExpanderHoldsTheLastByte :
    midPulse.expanderLines = (txEvents midPulse.history).getLast?.map Prod.snd ∧
    step midPulse = .next midPulse.perform := ⟨by decide, rfl⟩

theorem witness_OnlyTheExpanderIsWritten :
    step midPulse = .next midPulse.perform ∧ (0 : Nat) ≠ midPulse.cfg.addr.toNat := ⟨rfl, by decide⟩

/-- The step that accepts a backlight command, and one that accepts nothing. -/
theorem witness_OnlyNamedCommandsWriteTheRegisters :
    (∃ t, step (State.reset.withFetchWord 88 0x1300000000000000000000) = .next t ∧ t.bl ≠ State.reset.bl) ∧
    step midPulse = .next midPulse.perform := by
  refine ⟨⟨_, rfl, ?_⟩, rfl⟩
  decide

theorem witness_EntryModeIsCumulative :
    (flags 0b10 0).seq = [] ∧
    (∀ i ∈ [Instr.autoscrollOn, .rightToLeft, .leftToRight, .autoscrollOff],
      i = .leftToRight ∨ i = .rightToLeft ∨ i = .autoscrollOn ∨ i = .autoscrollOff) ∧
    (Instr.clear ≠ .leftToRight ∧ Instr.clear ≠ .rightToLeft ∧ Instr.clear ≠ .autoscrollOn ∧
      Instr.clear ≠ .autoscrollOff) := by decide

theorem witness_DisplayControlIsCumulative :
    ((flags 0 0b100).seq = [] ∧ (flags 0 0b100).disp = 0b100) ∧ 2 < 3 ∧
    (Instr.clear ≠ .displayOn ∧ Instr.clear ≠ .displayOff ∧ Instr.clear ≠ .cursorOn ∧ Instr.clear ≠ .cursorOff ∧
      Instr.clear ≠ .blinkOn ∧ Instr.clear ≠ .blinkOff) := by decide

/-- Reset with a gap between the nibbles. -/
def gapped : State := { State.reset with cfg := { Cfg.default with tGap := 37 } }

/-- With `T_GAP = 0` and with `T_GAP > 0`. -/
theorem witness_MicroStepCounts :
    (lit.seq = [] ∧ lit.cfg.waitsPresent = true ∧ ∃ t, exec .init lit = .next t) ∧
    (gapped.seq = [] ∧ gapped.cfg.waitsPresent = true ∧ ∃ t, exec .init gapped = .next t) :=
  ⟨⟨rfl, by decide, _, rfl⟩, rfl, by decide, _, rfl⟩

theorem witness_TransmissionCountsAndWaitSums :
    lit.seq = [] ∧ (∃ t, exec .init lit = .next t) ∧ lit.cfg.waitsPresent = true ∧ lit.cfg.tGap = 0 ∧
    lit.cfg = Cfg.default := ⟨rfl, ⟨_, rfl⟩, by decide, rfl, rfl⟩

/-- Another command that ends with `T_SETTLE`, and a configuration with `T_EN = 0` and `T_SETTLE = 0`. -/
theorem witness_ClearAndHomeSettleLongest :
    lit.seq = [] ∧ lit.cfg.longSettles = true ∧
    (∃ t, exec (.setCursor 5 1) lit = .next t ∧ t.pending.getLast? = some (.wait 37)) ∧
    { Cfg.default with tEn := 0, tSettle := 0 }.longSettles = true :=
  ⟨rfl, by decide, ⟨_, rfl, by decide⟩, by decide⟩

/-- The largest well-formed maximum column with 4 rows, with 2 or 3, and with 1. -/
theorem witness_CursorAddressStaysInItsRow :
    geometryWf (sized 44 4).cfg = true ∧ geometryWf (sized 64 3).cfg = true ∧ geometryWf (sized 64 2).cfg = true ∧
    geometryWf (sized 128 1).cfg = true ∧ geometryWf (sized 65 2).cfg = false ∧ geometryWf (sized 129 1).cfg = false := by
  decide

/-- After a byte with enable low. -/
theorem witness_BacklightLatchesNothing :
    ({ State.reset with out := [.tx 0x27 0x11] } : State).seq = [] ∧
    ∀ a v, (txEvents ({ State.reset with out := [.tx 0x27 0x11] } : State).out).getLast? = some (a, v) → enBit v = 0 := by
  refine ⟨rfl, fun a v h => ?_⟩
  cases h
  decide

theorem witness_OnlyListedInstructionBytesAreSent :
    State.reset.seq = [] ∧
    ((0, 0x01) ∈ joinNibbles ((latched (trace .clear State.reset)).drop 0)) ∧
    ((0, 0x28) ∈ joinNibbles ((latched (trace .init State.reset)).drop 4)) := by decide

theorem witness_InitLatchesTheHandshakeFirst : lit.seq = [] := rfl

/-! ### The watched controller -/

/-- A controller that needs exactly the default durations, and 50000 units after power-up. -/
def defaultNeeds : Needs := ⟨50000, 1, 0, 4200, 150, 37, 37, 1600, 37⟩

/-- A watcher who knows nothing of a controller that has had its power-on time. -/
def newcomer : Observer := ⟨.unknown, Controller.unknown, none, 0, 0, 0⟩

/-- A watcher of an initialised controller. -/
def settled : Observer :=
  ⟨.ready, ⟨some .four, 0, none, some 0b10, some 0b100, some .ddram, none⟩, some (0x27, 0x60), 37, 37, 0⟩

theorem settled_ready : settled.Ready :=
  ⟨rfl, rfl, rfl, fun a v h => by cases h; decide, by decide, rfl⟩

/-- The engine that `settled` watches, with `HOME` on its port. -/
def initialised : State := { flags 0b10 0b100 with inputs := [.command 0x0300000000000000000000] }

/-- R272: an `INIT` reset after its 0x20 leaves nothing known, and `DISPLAY_ON` after it neither. -/
theorem test_reset_in_init_leaves_nothing_known :
    ((newcomer.watch defaultNeeds
        ([Sight.accepted .init] ++ (((trace .init State.reset).take 16).map Sight.event) ++ [.reset true] ++
          [.accepted .displayOn] ++ ((trace .displayOn State.reset).map Sight.event))).known) =
      Controller.unknown := by decide

/-- R278: a wait after the first prime that is shorter than the controller needs loses the `INIT` at the next pulse. -/
theorem test_short_prime_loses_init :
    ((newcomer.accepted .init).watch { defaultNeeds with init1 := 4201 }
        (((trace .init State.reset).take 5).map Sight.event)).stage = .unknown ∧
    ((newcomer.accepted .init).watch defaultNeeds
        (((trace .init State.reset).take 5).map Sight.event)).stage = .starting := by decide

/-- R92: 0x00 has no class, so nothing is known after it; 0x03, whose highest set bit is bit 1, is a home (log entry 17). -/
theorem test_byte_without_class :
    settled.ctrl.byte 0 0x00 = Controller.unknown ∧ settled.ctrl.byte 0 0x03 = settled.ctrl.byte 0 0x02 := by decide

/-- R150, R263: the last byte of `INIT`, the entry mode 0x06, and its settle wait make the controller known. -/
theorem test_entry_mode_completes_init :
    (Observer.watch defaultNeeds
        ⟨.starting, ⟨some .four, 0, none, none, some 0b100, some .ddram, none⟩, some (0x27, 0x10), 1600, 1600, 0⟩
        ((four 0x04 0x00 0x64 0x60 37).map Sight.event)).known =
      ⟨some .four, 0, none, some 0b10, some 0b100, some .ddram, none⟩ := by decide

theorem witness_ControllerIsKnownAfterInit :
    lit.seq = [] ∧ defaultNeeds.metBy lit.cfg ∧ newcomer.awaiting = 0 := by decide

theorem witness_PointerIsBackInDdramAfterGlyph :
    lit.seq = [] ∧ defaultNeeds.metBy lit.cfg ∧ settled.Ready := ⟨rfl, by decide, settled_ready⟩

/-- A step that accepts no INIT; one that accepts an INIT; a reset that interrupts; the micro-step that completes an INIT;
and a byte of the INIT still to be sent. -/
theorem witness_ControllerIsUnknownUntilInitCompletes :
    (newcomer.stage = .unknown ∧ step initialised = exec .home { initialised with inputs := [] }) ∧
    (State.reset.seq = [] ∧ decode 0x0100000000000000000000 = .ok .init ∧
      (State.reset.withFetchWord 88 0x0100000000000000000000).inputs = [.command 0x0100000000000000000000]) ∧
    ((busy (.wait 37)).seq ≠ [] ∧ ({ busy (.wait 37) with inputs := [.reset] } : State).inputs = .reset :: []) ∧
    ({ settled with stage := .starting, waited := 0 } : Observer).stage = .starting ∧
    (Observer.watch defaultNeeds { settled with stage := .starting, waited := 0 } (busy (.wait 37)).sights).stage = .ready ∧
    trace .init State.reset = (trace .init State.reset).take 42 ++ (trace .init State.reset).drop 42 ∧
    txEvents ((trace .init State.reset).drop 42) ≠ [] := by
  refine ⟨⟨rfl, rfl⟩, ⟨rfl, by decide, rfl⟩, ⟨by decide, rfl⟩, rfl, by decide, by decide, by decide⟩

theorem witness_InitialisedControllerStaysInStep :
    defaultNeeds.metBy initialised.cfg ∧ (∀ rest, initialised.inputs ≠ .reset :: rest) ∧
    settled.InStep defaultNeeds initialised ∧ ∃ t, step initialised = .next t :=
  ⟨by decide, fun rest => by simp [initialised], ⟨settled_ready, by decide, by decide⟩, _, rfl⟩

/-- A reset that comes with no `TX` requested. -/
theorem witness_ResetGivesTheResetValues :
    ({ busy (.wait 37) with inputs := [.reset, .pass] } : State).inputs = .reset :: [.pass] ∧
    ({ busy (.wait 37) with inputs := [.reset, .pass] } : State).txRequest = none := ⟨rfl, rfl⟩

/-- A reset that comes while a `TX` is requested. -/
theorem witness_ResetAbandonsTheOperation :
    ({ busy (.tx 0x45) with inputs := [.reset] } : State).inputs = .reset :: [] ∧
    (busy (.tx 0x45)).txRequest = some 0x45 := ⟨rfl, rfl⟩

theorem witness_InitFromResetGivesTheDefaultDisplay :
    lit.seq = [] ∧ lit.entry = 0 ∧ lit.disp = 0 ∧ lit.out = [] := by decide

/-- Each kind of cycle: a stutter, a strobe counted, an acceptance, a micro-step completed. -/
theorem witness_EveryCycleIsAStutterOrAStep :
    quiet.rst = false ∧ cycle quiet lit = .next lit ∧
    cycle { quiet with unitTick := true } (busy (.wait 1)) = .next { busy (.wait 1) with tmr := 0 } ∧
    (∃ t, cycle { quiet with cmdValid := true, cmdWord := 0x0300000000000000000000 } lit = .next t ∧ t.seq ≠ []) ∧
    cycle { quiet with txReady := true } (busy (.tx 0x45)) = .next (busy (.tx 0x45)).perform :=
  ⟨rfl, rfl, rfl, ⟨_, rfl, by decide⟩, rfl⟩

theorem witness_CyclesRefineTheEventLevel :
    (∀ p ∈ [{ quiet with cmdValid := true, cmdWord := 0x1300000000000000000000 }, { quiet with txReady := true }],
      p.rst = false) ∧
    ∃ t, cycles [{ quiet with cmdValid := true, cmdWord := 0x1300000000000000000000 }, { quiet with txReady := true }]
        State.reset = .next t ∧ t.out = [.tx 0x27 0x08] :=
  ⟨by decide, _, rfl, by decide⟩

/-- A `WAIT(1)` with no strobe, with one, and with the second to come. -/
theorem witness_WaitCountsItsStrobes :
    (busy (.wait 1)).seq = ⟨⟨1, 0, 1, 0x41⟩, .wait 1⟩ :: [⟨⟨1, 0, 0, 0x41⟩, .tx 0x41⟩] ∧ (busy (.wait 1)).tmr = 1 ∧
    (∀ p ∈ [quiet, { quiet with unitTick := true }], p.rst = false) ∧
    ([quiet].filter PortIn.unitTick).length ≤ (1 : Units).toNat ∧
    ([quiet, { quiet with unitTick := true }].filter PortIn.unitTick).length = (1 : Units).toNat ∧
    ({ quiet with unitTick := true } : PortIn).unitTick = true := by decide

theorem witness_TransactionIsHeldUntilReady :
    (busy (.tx 0x45)).seq = ⟨⟨1, 0, 1, 0x41⟩, .tx 0x45⟩ :: [⟨⟨1, 0, 0, 0x41⟩, .tx 0x41⟩] ∧
    (∀ p ∈ [quiet, { quiet with unitTick := true }], p.rst = false ∧ p.txReady = false) ∧
    ({ quiet with txReady := true } : PortIn).rst = false ∧ ({ quiet with txReady := true } : PortIn).txReady = true := by
  decide

theorem witness_CommandTransferNeedsReadyAndValid :
    ((portOut { quiet with cmdValid := true } lit).cmdReady = true ∧ decode 0x0300000000000000000000 = .ok .home) ∧
    (portOut quiet lit).cmdReady = true ∧ quiet.cmdValid = false ∧ (portOut quiet (busy (.tx 0x45))).busy = true := by
  decide

theorem witness_ResetWinsInItsCycle :
    ({ quiet with rst := true, cmdValid := true, txReady := true } : PortIn).rst = true := rfl

/-- A text with a space and the last ASCII character. -/
theorem witness_PrintWritesEachByteInOrder :
    lit.seq = [] ∧ ∀ c ∈ ['H', ' ', '~', Char.ofNat 127], c.toNat < 128 ∧ c ≠ '"' := by
  refine ⟨rfl, fun c h => ?_⟩
  simp only [List.mem_cons, List.not_mem_nil, or_false] at h
  rcases h with rfl | rfl | rfl | rfl <;> decide

theorem witness_SecondNamesAssembleAlike :
    (0x11, "SET_CURSOR", "setCursor") ∈ nameTable ∧
    ((0x14, "BACKLIGHT_OFF", "backlightOff") ∈ nameTable ∧ (0x14 : Byte) ≠ 0x10 ∧ (0x14 : Byte) ≠ 0x11 ∧
      (0x14 : Byte) ≠ 0x12) := by decide

/-- R260, step 2: no command before the first reset, a backlight command neither. -/
theorem test_boot_needs_reset :
    bootOk 50000 .start [.elapse 50000, .issue .init] = false ∧
    bootOk 50000 .start [.issue .backlightOn] = false ∧
    bootOk 50000 .start [.reset false, .issue .backlightOn] = true := by decide

/-- A disciplined boot: power, reset, the wait, the backlight before INIT, INIT, a command. -/
theorem witness_InstructionsComeAfterInit :
    bootOk 50000 .start ([.powerUp, .reset false, .elapse 50000, .issue .backlightOn, .issue .init, .reset false] ++
      .issue .clear :: [.reset true]) = true ∧
    bootOk 50000 .start ([.powerUp, .reset false, .elapse 50000] ++ .issue .init :: []) = true ∧
    Instr.clear.sendsInstruction = true ∧ Instr.clear ≠ .init := by decide

end Sys2Proof.Tests
end

/-! # The family of spec/00_scope.md: the effective geometry and the run of a whole program -/

namespace Sys2Proof

/-- The assembled word of a command decodes to that command (R103, R109). -/
theorem decode_encode (i : Instr) : decode (encode i) = .ok i := by
  cases i <;> simp [decode, encode]

end Sys2Proof

namespace Sys2Proof.Machine

/-! ### The effective geometry (R5, R30) -/

/-- Settles O39: the counts and maxima in natural numbers are the laws of the operand forms, and the ranges follow from
the widths of COLS and ROWMAX. -/
theorem geometryIsClamped : Obligations.GeometryIsClamped := by
  intro c
  have hcols := (cols c).isLt
  have hrow := (rowMax c).isLt
  refine ⟨cols_toNat c, rows_toNat c, colMax_toNat c, rowMax_toNat c, ?_, ?_⟩
  · rw [colMax_toNat]
    omega
  · omega

/-! ### Runs of the event-level machine -/

theorem run_succ_of_step {s t : State} (h : step s = .next t) (k : Nat) :
    Host.Core.run Sys2Proof.core (k + 1) s = Host.Core.run Sys2Proof.core k t := by
  simp [Host.Core.run, Sys2Proof.core, h]

/-- A run goes on from the state that its first steps reach. -/
theorem run_add {s t : State} {j : Nat} (h : Host.Core.run Sys2Proof.core j s = .next t) (k : Nat) :
    Host.Core.run Sys2Proof.core (j + k) s = Host.Core.run Sys2Proof.core k t := by
  induction j generalizing s with
  | zero =>
    cases h
    rw [Nat.zero_add]
  | succ j ih =>
    cases hs : step s with
    | next u =>
      rw [run_succ_of_step hs] at h
      rw [Nat.succ_add, run_succ_of_step hs, ih h]
    | fault r => simp [Host.Core.run, Sys2Proof.core, hs] at h
    | refused r => simp [Host.Core.run, Sys2Proof.core, hs] at h

/-- With nothing or a held word on the command port a running operation goes on to its end (R37, R226). -/
theorem run_finish {s : State} (hi : s.inputs = [] ∨ ∃ w rest, s.inputs = .command w :: rest) :
    Host.Core.run Sys2Proof.core s.seq.length s = .next s.finish := by
  unfold State.finish
  generalize hn : s.seq.length = n
  induction n generalizing s with
  | zero => rfl
  | succ n ih =>
    have hbusy : s.seq ≠ [] := List.ne_nil_of_length_eq_add_one hn
    rw [run_succ_of_step (step_busy hbusy hi)]
    exact ih (by simpa using hi) (by simp [hn])

/-! ### A command issued to an idle engine -/

section
variable (i : Instr) {s : State} (h : s.seq = [])
include h

theorem issue_seq : (s.issue i).seq = [] := by rw [issue_idle i h, finish_exec]

theorem issue_inputs : (s.issue i).inputs = s.inputs := by rw [issue_idle i h, finish_exec]

theorem issue_out : (s.issue i).out = s.out ++ traceOf s.cfg i s.regs := by rw [issue_idle i h, finish_exec]

theorem issue_regs : (s.issue i).regs = regsAfter i s.regs := by rw [issue_idle i h, finish_exec]; rfl

theorem issue_cfg : (s.issue i).cfg = s.cfg := by rw [issue_idle i h, finish_exec]

theorem issue_past : (s.issue i).past = s.past := by rw [issue_idle i h, finish_exec]

/-- An idle engine accepts the assembled word on its port (R36, R85). -/
theorem step_encoded {rest : List Input} (hi : s.inputs = .command (encode i) :: rest) :
    step s = exec i { s with inputs := rest } := by
  simp [step, hi, State.idle, h, decode_encode]

/-- The first command of a held program is accepted and runs to its end, which is to issue it (R77). -/
theorem run_first_command {is : List Instr} (hi : s.inputs = programInputs (i :: is)) :
    ∃ k, Host.Core.run Sys2Proof.core k s = .next (State.issue i { s with inputs := programInputs is }) := by
  set u : State := { s with inputs := programInputs is }
  have huseq : u.seq = [] := h
  have hstep : step s = .next (u.load (opOf i u.toBuild)) :=
    (step_encoded i h hi).trans (exec_idle i huseq)
  have hport : u.inputs = [] ∨ ∃ w rest, u.inputs = .command w :: rest := by
    cases is with
    | nil => exact .inl rfl
    | cons j js => exact .inr ⟨encode j, programInputs js, rfl⟩
  refine ⟨(u.load (opOf i u.toBuild)).seq.length + 1, ?_⟩
  rw [run_succ_of_step hstep, run_finish (by simpa using hport), issue_idle i huseq]

end

/-- Settles O25, by induction on the program: the first command runs to its end from the registers that it finds, and the
rest of the program runs from the state that it leaves. -/
theorem programRunsAsTheTablesSay : Obligations.ProgramRunsAsTheTablesSay := by
  intro is
  induction is with
  | nil =>
    intro s hs hi
    exact ⟨0, s, rfl, hs, hi, by simp [traceOfAll], rfl, rfl, rfl⟩
  | cons i is ih =>
    intro s hs hi
    set u : State := { s with inputs := programInputs is }
    have hu : u.seq = [] := hs
    obtain ⟨j, hj⟩ := run_first_command i hs hi
    obtain ⟨k, t, hk, hseq, hin, hout, hregs, hcfg, hpast⟩ := ih (u.issue i) (issue_seq i hu) (issue_inputs i hu)
    rw [issue_out i hu, issue_cfg i hu, issue_regs i hu, List.append_assoc] at hout
    rw [issue_regs i hu] at hregs
    exact ⟨j + k, t, (run_add hj k).trans hk, hseq, hin, hout, hregs, hcfg.trans (issue_cfg i hu),
      hpast.trans (issue_past i hu)⟩

end Sys2Proof.Machine

/-! # The family of spec/10_state.md: the invariants, what each step writes, the run of an operation, the controller -/

namespace Sys2Proof.Machine

/-! ### Micro-steps -/

/-- The event of a sound micro-step is sound (R22, R61). -/
theorem Micro.sound_event {m : Micro} (h : m.sound) (addr : BusAddr) : (m.act.event addr).sound addr := by
  obtain ⟨l, a⟩ := m
  obtain ⟨-, hact⟩ := h
  cases a with
  | tx v => exact ⟨rfl, hact⟩
  | wait n => exact hact

/-! ### The latches an operation leaves -/

/-- Every operation leaves EN low, if it was low while idle (R130, R215). -/
theorem latLeft_en (i : Instr) {s : State} (h : s.lat.en = 0) : (latLeft i s).en = 0 := by
  cases i with
  | backlightOn | backlightOff => exact h
  | _ => rfl

/-! ### The invariants (R39) -/

/-- Starting the head of SEQ establishes what `Inv` says of TMR and of the standing latches; the rest has to hold
before. -/
theorem State.inv_start {s : State} (hrw : s.lat.rw = 0) (hen : s.seq = [] → s.lat.en = 0)
    (hseq : ∀ m ∈ s.seq, m.sound) (hlast : ∀ m, s.seq.getLast? = some m → m.lat.en = 0)
    (hout : ∀ e ∈ s.out, e.sound s.cfg.addr) (hpast : ∀ e ∈ s.past, e.sound s.cfg.addr) (hbus : s.bus.wf) :
    s.start.Inv := by
  cases hs : s.seq with
  | nil =>
    rw [State.start_nil hs]
    exact ⟨hrw, fun _ => ⟨hen hs, rfl⟩, hseq, hlast, by simp [hs], hout, hpast, hbus⟩
  | cons m ms =>
    rw [State.start_cons hs]
    refine ⟨(hseq m (by simp [hs])).1, by simp [hs], hseq, hlast, fun n hn => ?_, hout, hpast, hbus⟩
    obtain rfl : m = n := by simpa [hs] using hn
    exact ⟨rfl, BitVec.le_refl _⟩

theorem State.Inv.inputs {s : State} (h : s.Inv) (r : List Input) : ({ s with inputs := r } : State).Inv :=
  ⟨h.rwLow, h.idleLow, h.seqSound, h.lastLow, h.started, h.outSound, h.pastSound, h.busWf⟩

/-- The last micro-step of an operation leaves EN low, so it is low when the operation has ended. -/
theorem State.Inv.perform {s : State} (h : s.Inv) : s.perform.Inv := by
  cases hs : s.seq with
  | nil => rwa [State.perform_nil hs]
  | cons m ms =>
    have hm : m.sound := h.seqSound m (by simp [hs])
    rw [State.perform_cons hs]
    refine State.inv_start h.rwLow (fun hms => ?_) (fun x hx => ?_) (fun x hx => ?_) (fun e he => ?_)
      h.pastSound (Act.wf_store _ h.busWf)
    · rw [(h.started m (by simp [hs])).1]
      exact h.lastLow m (by simp_all)
    · exact h.seqSound x (hs ▸ List.mem_cons_of_mem m hx)
    · exact h.lastLow x (by rw [hs, List.getLast?_cons, hx]; rfl)
    · rcases List.mem_append.1 he with he | he
      · exact h.outSound e he
      · obtain rfl := List.mem_singleton.1 he
        exact Micro.sound_event hm _

/-- A reset keeps the invariants: the `Tx` that may land is a sound micro-step of SEQ (R251). -/
theorem State.Inv.takeReset {s : State} (h : s.Inv) : s.takeReset.Inv := by
  have hsent : ∀ e ∈ s.past ++ s.out, e.sound s.cfg.addr := fun e he =>
    (List.mem_append.1 he).elim (h.pastSound e) (h.outSound e)
  refine ⟨rfl, fun _ => ⟨rfl, rfl⟩, by simp, by simp, by simp, by simp, ?_, ?_⟩
  · rcases landed_cases s with hl | ⟨l, v, ms, hs, hl⟩
    · simpa [hl] using hsent
    · intro e he
      rw [State.takeReset_past, hl] at he
      rcases List.mem_append.1 he with he | he
      · exact hsent e he
      · obtain rfl := List.mem_singleton.1 he
        exact Micro.sound_event (h.seqSound ⟨l, .tx v⟩ (by simp [hs])) _
  · rcases landed_cases s with hl | ⟨l, v, ms, -, hl⟩
    · simpa [hl] using h.busWf
    · simpa [hl] using Act.wf_store (.tx v) h.busWf

/-- An accepted command loads sound micro-steps, and its last one leaves EN low (R22, R130). -/
theorem State.Inv.load {s : State} (h : s.Inv) (hs : s.seq = []) (i : Instr) :
    (s.load (opOf i s.toBuild)).Inv := by
  have hen : s.lat.en = 0 := (h.idleLow hs).1
  refine State.inv_start h.rwLow (fun _ => hen) (sound_opOf i (by simp [Build.Sound]) h.rwLow) (fun m hm => ?_)
    h.outSound h.pastSound h.busWf
  have hlat : m.lat = latLeft i s := by
    have hsettled := settled_opOf i s.toBuild
    rw [Build.Settled, show (opOf i s.toBuild).steps.getLast? = some m from hm, lat_opOf] at hsettled
    simpa using hsettled
  rw [hlat]
  exact latLeft_en i hen

theorem State.Inv.exec {s t : State} (h : s.Inv) (hs : s.seq = []) {i : Instr} (ht : exec i s = .next t) : t.Inv := by
  rw [exec_idle i hs] at ht
  cases ht
  exact h.load hs i

/-- Counting a strobe of a running wait keeps TMR at most what the wait loaded (R34). -/
theorem State.Inv.count {s : State} (h : s.Inv) (hs : s.seq ≠ []) (ht : s.tmr ≠ 0) :
    ({ s with tmr := s.tmr - 1 } : State).Inv := by
  refine ⟨h.rwLow, fun hnil => absurd hnil hs, h.seqSound, h.lastLow, fun m hm => ?_, h.outSound, h.pastSound,
    h.busWf⟩
  obtain ⟨hlat, hle⟩ := h.started m hm
  have hdown : s.tmr - 1 ≤ s.tmr := by bv_omega
  exact ⟨hlat, BitVec.le_trans hdown hle⟩

theorem State.Inv.advance {s : State} (h : s.Inv) (p : PortIn) : (s.advance p).Inv := by
  rcases advance_cases p s with ht | ⟨hs, -, htmr, ht⟩ | ⟨-, ht⟩
  · rwa [ht]
  · rw [ht]
    exact h.count hs htmr
  · rw [ht]
    exact h.perform

/-- Settles O28: each of the three things a step can be keeps the invariants. -/
theorem everyStepKeepsTheInvariants : Obligations.EveryStepKeepsTheInvariants := by
  intro s t h hstep
  rcases step_cases hstep with ⟨r, rfl⟩ | ⟨rest, -, rfl⟩ | ⟨w, i, rest, hs, -, -, ht⟩
  · exact (h.inputs r).perform
  · exact (h.inputs rest).takeReset
  · exact (h.inputs rest).exec hs ht

/-- Settles O29: each of the four things a cycle can be keeps the invariants. -/
theorem everyCycleKeepsTheInvariants : Obligations.EveryCycleKeepsTheInvariants := by
  intro p s t h hcycle
  rcases cycle_cases hcycle with ⟨-, rfl⟩ | ⟨-, -, -, rfl⟩ | ⟨-, hs, -, i, -, ht⟩ | ⟨-, -, rfl⟩
  · exact h.takeReset
  · exact h
  · exact h.exec hs ht
  · exact h.advance p

/-- Settles O27. -/
theorem resetStateIsSound : Obligations.ResetStateIsSound :=
  ⟨⟨rfl, fun _ => ⟨rfl, rfl⟩, by simp [State.reset], by simp [State.reset], by simp [State.reset],
    by simp [State.reset], by simp [State.reset], List.Pairwise.nil, by simp [State.reset]⟩, by decide⟩

/-! ### What each command writes (R32) -/

theorem regsAfter_bl_cases (i : Instr) (r : Regs) :
    (regsAfter i r).bl = r.bl ∨ i = .backlightOn ∨ i = .backlightOff := by
  cases i with
  | backlightOn | backlightOff => simp
  | _ => exact .inl rfl

theorem regsAfter_entry_cases (i : Instr) (r : Regs) :
    (regsAfter i r).entry = r.entry ∨
      i = .leftToRight ∨ i = .rightToLeft ∨ i = .autoscrollOn ∨ i = .autoscrollOff ∨ i = .init := by
  cases i with
  | init | leftToRight | rightToLeft | autoscrollOn | autoscrollOff => simp
  | _ => exact .inl rfl

theorem regsAfter_disp_cases (i : Instr) (r : Regs) :
    (regsAfter i r).disp = r.disp ∨
      i = .displayOn ∨ i = .displayOff ∨ i = .cursorOn ∨ i = .cursorOff ∨ i = .blinkOn ∨ i = .blinkOff ∨
        i = .init := by
  cases i with
  | init | displayOn | displayOff | cursorOn | cursorOff | blinkOn | blinkOff => simp
  | _ => exact .inl rfl

/-- Every command sends at least one byte (R104). -/
theorem txEvents_traceOf_ne_nil (c : Cfg) (i : Instr) (r : Regs) : txEvents (traceOf c i r) ≠ [] := by
  have hcommand (bl : Line) (b : Byte) (t : Units) : txEvents (commandTrace c bl b t) ≠ [] := by
    rw [commandTrace, txEvents_instrTrace]
    exact List.cons_ne_nil _ _
  cases i with
  | init => simp [traceOf, initTrace, hcommand]
  | defineGlyph a g => simp [traceOf, glyphTrace, hcommand]
  | writeChar a => simp [traceOf, dataTrace, txEvents_instrTrace]
  | backlightOn | backlightOff => exact List.cons_ne_nil _ _
  | _ => exact hcommand _ _ _

/-- Settles O18: the state in which the operation ends (`finish_exec`), read field by field. -/
theorem commandsChangeOnlyWhatTheirRowNames : Obligations.CommandsChangeOnlyWhatTheirRowNames := by
  intro i s hs
  refine ⟨_, exec_idle i hs, ?_⟩
  have hsent : (txEvents (traceOf s.cfg i s.regs)).getLast? ≠ none :=
    mt List.getLast?_eq_none_iff.1 (txEvents_traceOf_ne_nil s.cfg i s.regs)
  obtain ⟨e, he⟩ := Option.ne_none_iff_exists'.1 hsent
  rw [finish_exec, he]
  refine ⟨fun a ha => Memory.read_write_other _ _ ha, Memory.read_write_same _ _ _, fun h1 h2 => ?_, ?_,
    fun h1 h2 h3 h4 h5 => ?_, fun h1 h2 h3 h4 h5 h6 h7 => ?_, rfl, rfl, rfl, rfl, rfl, rfl⟩
  · refine ⟨(regsAfter_bl_cases i s.regs).resolve_right (by simp [h1, h2]), ?_⟩
    cases i with
    | backlightOn => exact absurd rfl h1
    | backlightOff => exact absurd rfl h2
    | _ => exact ⟨rfl, rfl, rfl⟩
  · rintro (rfl | rfl) <;> rfl
  · exact (regsAfter_entry_cases i s.regs).resolve_right (by simp [h1, h2, h3, h4, h5])
  · exact (regsAfter_disp_cases i s.regs).resolve_right (by simp [h1, h2, h3, h4, h5, h6, h7])

/-- Settles O24. -/
theorem acceptanceLoadsWholeOperation : Obligations.AcceptanceLoadsWholeOperation := by
  intro i s hs
  exact ⟨_, exec_idle i hs, pending_load i s, regs_load i s, by simp, by simp, by simp, by simp, by simp, by simp⟩

/-! ### Latches and TMR between operations (R21, R25, R34) -/

/-- An issued command reads neither the latches nor TMR; only the latches it leaves may be those it found. -/
theorem issue_lat_tmr (i : Instr) {s : State} (hs : s.seq = []) (l : Latches) (n : Units) :
    State.issue i { s with lat := l, tmr := n } =
      { s.issue i with lat := latLeft i { s with lat := l, tmr := n }, tmr := 0 } := by
  rw [issue_idle i hs, issue_idle i (s := { s with lat := l, tmr := n }) hs, finish_exec, finish_exec]
  rfl

theorem issueAll_lat_tmr (is : List Instr) {s : State} (hs : s.seq = []) (l : Latches) (n : Units) :
    ∃ l' n', State.issueAll is { s with lat := l, tmr := n } = { s.issueAll is with lat := l', tmr := n' } := by
  induction is generalizing s l n with
  | nil => exact ⟨l, n, rfl⟩
  | cons i is ih =>
    rw [State.issueAll, State.issueAll, issue_lat_tmr i hs]
    exact ih (issue_seq i hs) _ _

/-- Settles O26. -/
theorem idleLatchesNeverReachTheTrace : Obligations.IdleLatchesNeverReachTheTrace := by
  intro is s l n hs
  obtain ⟨l', n', h⟩ := issueAll_lat_tmr is hs l n
  rw [h]
  exact ⟨rfl, rfl, rfl⟩

/-! ### The bytes held on the bus (R44, R61) -/

theorem Act.read_store_other (x : Act) {addr : BusAddr} (m : Memory) {a : Nat} (h : a ≠ addr.toNat) :
    (x.store addr m).read a = m.read a := by
  cases x with
  | tx v => exact Memory.read_write_other m v h
  | wait n => rfl

/-- After the store of a micro-step the expander holds the last byte, if it did before (R44). -/
theorem Act.read_store_last (x : Act) {addr : BusAddr} {m : Memory} {es : List Event}
    (h : m.read addr.toNat = (txEvents es).getLast?.map Prod.snd) :
    (x.store addr m).read addr.toNat = (txEvents (es ++ [x.event addr])).getLast?.map Prod.snd := by
  cases x with
  | tx v => simp [Act.store, Act.event, txEvents, Memory.read_write_same]
  | wait n => simpa [Act.store, Act.event, txEvents] using h

/-- What an accepted command leaves as it is (R36). -/
theorem exec_keeps {i : Instr} {s t : State} (hs : s.seq = []) (h : exec i s = .next t) :
    t.cfg = s.cfg ∧ t.bus = s.bus ∧ t.history = s.history := by
  rw [exec_idle i hs] at h
  cases h
  simp [State.history]

theorem exec_regs {i : Instr} {s t : State} (hs : s.seq = []) (h : exec i s = .next t) :
    t.regs = regsAfter i s.regs := by
  rw [exec_idle i hs] at h
  cases h
  exact regs_load i s

theorem perform_regs (s : State) : s.perform.regs = s.regs := by simp [State.regs]

theorem perform_history_bus (s : State) :
    (s.perform.history = s.history ∧ s.perform.bus = s.bus) ∨
      ∃ x : Act,
        s.perform.history = s.history ++ [x.event s.cfg.addr] ∧ s.perform.bus = x.store s.cfg.addr s.bus := by
  cases hs : s.seq with
  | nil => simp [State.perform_nil hs]
  | cons m ms => exact .inr ⟨m.act, by simp [State.perform_cons hs, State.history], by simp [State.perform_cons hs]⟩

theorem takeReset_history_bus (s : State) :
    (s.takeReset.history = s.history ∧ s.takeReset.bus = s.bus) ∨
      ∃ x : Act,
        s.takeReset.history = s.history ++ [x.event s.cfg.addr] ∧ s.takeReset.bus = x.store s.cfg.addr s.bus := by
  rcases landed_cases s with hl | ⟨l, v, ms, -, hl⟩
  · simp [State.history, hl]
  · exact .inr ⟨.tx v, by simp [State.history, hl], by simp [hl]⟩

/-- A step keeps the configuration, and what it puts on the bus is nothing, or one micro-step's event and its store. -/
theorem step_history_bus {s t : State} (h : step s = .next t) :
    t.cfg = s.cfg ∧ ((t.history = s.history ∧ t.bus = s.bus) ∨
      ∃ x : Act, t.history = s.history ++ [x.event s.cfg.addr] ∧ t.bus = x.store s.cfg.addr s.bus) := by
  rcases step_cases h with ⟨r, rfl⟩ | ⟨rest, -, rfl⟩ | ⟨w, i, rest, hs, -, -, ht⟩
  · exact ⟨State.perform_cfg _, perform_history_bus { s with inputs := r }⟩
  · exact ⟨rfl, takeReset_history_bus { s with inputs := rest }⟩
  · obtain ⟨hcfg, hbus, hhistory⟩ := exec_keeps (s := { s with inputs := rest }) hs ht
    exact ⟨hcfg, .inl ⟨hhistory, hbus⟩⟩

/-- Settles O31. -/
theorem expanderHoldsTheLastByte : Obligations.ExpanderHoldsTheLastByte := by
  intro s t h hstep
  unfold State.expanderLines at *
  obtain ⟨hcfg, ⟨hhistory, hbus⟩ | ⟨x, hhistory, hbus⟩⟩ := step_history_bus hstep
  · rwa [hcfg, hbus, hhistory]
  · rw [hcfg, hbus, hhistory]
    exact x.read_store_last h

/-- Settles O32. -/
theorem onlyTheExpanderIsWritten : Obligations.OnlyTheExpanderIsWritten := by
  intro s t hstep
  obtain ⟨hcfg, ⟨-, hbus⟩ | ⟨x, -, hbus⟩⟩ := step_history_bus hstep
  · exact ⟨hcfg, fun a _ => by rw [hbus]⟩
  · exact ⟨hcfg, fun a ha => by rw [hbus, x.read_store_other s.bus ha]⟩

/-- Settles O33. -/
theorem onlyNamedCommandsWriteTheRegisters : Obligations.OnlyNamedCommandsWriteTheRegisters := by
  intro s t hstep
  rcases step_cases hstep with ⟨r, rfl⟩ | ⟨rest, hin, -⟩ | ⟨w, i, rest, hs, hin, hw, ht⟩
  · exact .inr (.inl (perform_regs { s with inputs := r }))
  · exact .inl ⟨rest, hin⟩
  · have hregs : t.regs = regsAfter i s.regs := exec_regs (s := { s with inputs := rest }) hs ht
    refine .inr (.inr ⟨w, i, rest, hs, hin, hw, fun h => ?_, fun h => ?_, fun h => ?_⟩)
    · exact (regsAfter_bl_cases i s.regs).resolve_left (hregs ▸ h)
    · exact (regsAfter_entry_cases i s.regs).resolve_left (hregs ▸ h)
    · exact (regsAfter_disp_cases i s.regs).resolve_left (hregs ▸ h)

/-! ### Single steps -/

/-- Settles O19. -/
theorem stepRunsTheDecodedCommand : Obligations.StepRunsTheDecodedCommand := by
  intro s w i rest hs hin hw
  simp [step, hin, State.idle, hs, hw]

/-- Settles O20: a table word of at most 88 bits that decodes is the word placed on the port of an idle engine. -/
theorem placedWordRunsNext : Obligations.PlacedWordRunsNext := by
  intro s nbits w i hw
  have hdecode : decode (BitVec.ofNat 88 (w % 2 ^ nbits)) = .ok i := by
    unfold decodeTableWord at hw
    split at hw
    · cases hd : decode (BitVec.ofNat 88 (w % 2 ^ nbits)) with
      | ok j => simpa [hd, Except.toOption] using hw
      | error e => simp [hd, Except.toOption] at hw
    · cases hw
  exact stepRunsTheDecodedCommand (s.withFetchWord nbits w) _ i s.inputs rfl rfl hdecode

theorem step_no_input {s : State} (h : s.inputs = []) : step s = .next s.perform := by simp [step, h]

theorem step_pass {s : State} {rest : List Input} (h : s.inputs = .pass :: rest) :
    step s = .next { s.perform with inputs := rest } := by
  simp [step, h, perform_inputs]

/-- Settles O22. -/
theorem oneMicroStepPerStep : Obligations.OneMicroStepPerStep := by
  refine ⟨fun s m ms hs hin => ?_, fun s hs hin => ?_, fun s rest hin => ?_⟩
  · refine ⟨_, step_no_input hin, by simp [hs], by simp [State.perform_cons hs], ?_, ?_, by simp, by simp, by simp,
      by simp, by simp⟩
    all_goals
      rw [State.perform_cons hs]
      cases ms <;> rfl
  · rw [step_no_input hin, State.perform_nil hs]
  · refine ⟨State.perform { s with inputs := [] }, step_no_input rfl, ?_⟩
    rw [step_pass hin, perform_inputs s []]

/-- Settles O47: no `Tx` lands when none was requested. -/
theorem resetGivesTheResetValues : Obligations.ResetGivesTheResetValues := by
  intro s rest hin
  refine ⟨State.takeReset { s with inputs := rest }, by simp [step, hin], rfl, rfl, rfl, rfl, rfl, rfl, rfl, rfl, rfl,
    fun hnone => ?_⟩
  have hlanded : State.landed { s with inputs := rest } = [] := by
    rcases landed_cases { s with inputs := rest } with hl | ⟨l, v, ms, hs, -⟩
    · exact hl
    · simp [State.txRequest, show s.seq = _ from hs] at hnone
  simp [State.history, hlanded]

/-! ### The run of an operation to its end (R37, R73) -/

theorem performs_inputs (n : Nat) (s : State) (r : List Input) :
    State.performs n { s with inputs := r } = { s.performs n with inputs := r } := by
  induction n generalizing s with
  | zero => rfl
  | succ n ih => simp only [State.performs, perform_inputs, ih]

/-- A micro-step moves one event from what is still to be sent to what has been sent. -/
theorem committed_perform (s : State) : s.perform.committed = s.committed := by
  cases hs : s.seq with
  | nil => rw [State.perform_nil hs]
  | cons m ms => simp [State.committed, State.pending, State.perform_cons hs, hs]

/-- What every micro-step keeps, any number of them keeps. -/
theorem performs_keeps {α : Type} (f : State → α) (hf : ∀ s : State, f s.perform = f s) (n : Nat) (s : State) :
    f (s.performs n) = f s := by
  induction n generalizing s with
  | zero => rfl
  | succ n ih => rw [State.performs, ih, hf]

theorem performs_seq (n : Nat) (s : State) : (s.performs n).seq = s.seq.drop n := by
  induction n generalizing s with
  | zero => rfl
  | succ n ih => rw [State.performs, ih, State.perform_seq, List.drop_tail]

theorem finish_inputs (s : State) : s.finish.inputs = s.inputs := performs_keeps State.inputs State.perform_inputs _ s

theorem finish_regs (s : State) : s.finish.regs = s.regs := performs_keeps State.regs perform_regs _ s

theorem finish_cfg (s : State) : s.finish.cfg = s.cfg := performs_keeps State.cfg State.perform_cfg _ s

theorem finish_past (s : State) : s.finish.past = s.past := performs_keeps State.past State.perform_past _ s

theorem finish_seq (s : State) : s.finish.seq = [] := by simp [State.finish, performs_seq]

theorem finish_out (s : State) : s.finish.out = s.out ++ s.pending := by
  have h : s.finish.committed = s.committed := performs_keeps State.committed committed_perform _ s
  simpa [State.committed, State.pending, finish_seq] using h

/-- Each micro-step uses up one pass while there is one; the inputs take no other part in the operation. -/
theorem run_finish_passes {s : State} {passes : Nat} {rest : List Input}
    (hin : s.inputs = List.replicate passes .pass ++ rest)
    (hrest : rest = [] ∨ (∃ w later, rest = .command w :: later) ∨ s.seq.length ≤ passes) :
    Host.Core.run Sys2Proof.core s.seq.length s =
      .next { s.finish with inputs := List.replicate (passes - s.seq.length) .pass ++ rest } := by
  induction passes generalizing s with
  | zero =>
    have hrun : Host.Core.run Sys2Proof.core s.seq.length s = .next s.finish := by
      rcases hrest with h | h | h
      · exact run_finish (.inl (hin.trans h))
      · exact run_finish (.inr (by simpa [hin] using h))
      · simp [State.finish, Nat.le_zero.1 h, Host.Core.run, State.performs]
    have hkept : s.finish.inputs = List.replicate (0 - s.seq.length) .pass ++ rest := by
      simpa [finish_inputs] using hin
    rw [hrun, ← hkept]
  | succ passes ih =>
    cases hs : s.seq with
    | nil =>
      have hdone : s.finish = s := by simp [State.finish, hs, State.performs]
      simp [hdone, Host.Core.run, ← hin]
    | cons m ms =>
      set u : State := { s.perform with inputs := List.replicate passes .pass ++ rest }
      have hstep : step s = .next u := step_pass hin
      have hseq : u.seq = ms := by simp [u, hs]
      have hfinish : u.finish = { s.finish with inputs := List.replicate passes .pass ++ rest } := by
        simp only [State.finish, hseq, hs, List.length_cons, State.performs]
        exact performs_inputs ms.length s.perform _
      have hrun := ih (s := u) rfl (hrest.imp_right (Or.imp_right fun h => by simp_all))
      rw [hseq, hfinish] at hrun
      rw [List.length_cons, run_succ_of_step hstep, hrun, Nat.add_sub_add_right]

/-- Settles O23: the run to the end is `State.finish`, of which the laws above say the rest. -/
theorem operationRunsToItsEnd : Obligations.OperationRunsToItsEnd := by
  intro s passes rest hin hrest
  exact ⟨_, run_finish_passes hin hrest, rfl, finish_seq s, finish_out s, finish_regs s, finish_cfg s,
    finish_past s⟩

/-! ### Counting micro-steps (R38) -/

theorem length_pending (s : State) : s.pending.length = s.seq.length := List.length_map _

theorem length_waitTrace_gap (n : Units) : (waitTrace n).length = if n = 0 then 0 else 1 := by
  unfold waitTrace
  split <;> rfl

theorem length_instrTrace {c : Cfg} {t : Units} (he : c.tEn ≠ 0) (ht : t ≠ 0) (rs bl : Line) (b : Byte) :
    (instrTrace c rs bl b t).length = 7 + if c.tGap = 0 then 0 else 1 := by
  simp only [instrTrace, List.length_append, List.length_singleton, length_waitTrace he, length_waitTrace ht,
    length_waitTrace_gap]
  omega

theorem length_halfTrace {c : Cfg} {t : Units} (he : c.tEn ≠ 0) (ht : t ≠ 0) (bl : Line) (b : Byte) :
    (halfTrace c bl b t).length = 4 := by
  simp only [halfTrace, List.length_append, List.length_singleton, length_waitTrace he, length_waitTrace ht]

theorem waitsPresent_iff {c : Cfg} :
    c.waitsPresent = true ↔
      c.tEn ≠ 0 ∧ c.tSettle ≠ 0 ∧ c.tLong ≠ 0 ∧ c.tWrite ≠ 0 ∧ c.tInit1 ≠ 0 ∧ c.tInit2 ≠ 0 ∧ c.tInit3 ≠ 0 := by
  simp [Cfg.waitsPresent, and_assoc]

/-- Settles O36: the micro-steps are as many as the events of the command's trace. -/
theorem microStepCounts : Obligations.MicroStepCounts := by
  intro i s t hs hwaits ht
  obtain ⟨he, hsettle, hlong, hwrite, h1, h2, h3⟩ := waitsPresent_iff.1 hwaits
  rw [exec_idle i hs] at ht
  cases ht
  rw [← length_pending, pending_load]
  have hcommand (b : Byte) : (commandTrace s.cfg s.bl b s.cfg.tSettle).length = _ :=
    length_instrTrace he hsettle 0 s.bl b
  have hclear (b : Byte) : (commandTrace s.cfg s.bl b s.cfg.tLong).length = _ := length_instrTrace he hlong 0 s.bl b
  have hdata (b : Byte) : (dataTrace s.cfg s.bl b).length = _ := length_instrTrace he hwrite 1 s.bl b
  cases i with
  | init =>
    simp only [traceOf, initTrace, State.regs, List.length_append, length_halfTrace he, hcommand, hclear, h1, h2, h3,
      hsettle, ne_eq, not_false_iff]
    omega
  | defineGlyph a g =>
    simp only [traceOf, glyphTrace, State.regs, List.length_append, List.length_flatMap, hcommand, hdata,
      List.map_const', List.sum_replicate, List.length_range, smul_eq_mul]
    omega
  | writeChar a => exact hdata _
  | clear | home => exact hclear _
  | backlightOn | backlightOff => rfl
  | _ => exact hcommand _

/-! ### The nibbles of `INIT` (R151, R152) -/

/-- The handshake's four single nibbles, then the two nibbles of each of the four bytes. -/
theorem latched_initTrace (c : Cfg) (bl : Line) (e : BitVec 2) (d : BitVec 3) :
    latched (initTrace c bl e d) =
      [(0, 3), (0, 3), (0, 3), (0, 2)] ++
        [0x28, 0x08 ||| d.setWidth 8, 0x01, 0x04 ||| e.setWidth 8].flatMap
          (fun b => [((0 : Line), hiNibble b), (0, loNibble b)]) := by
  simp only [latched, initTrace, commandTrace, txEvents_append, List.append_assoc]
  rw [latchedAfter_halfTrace _ _ _ _ _ low_none]
  iterate 3 rw [latchedAfter_halfTrace _ _ _ _ _ (low_half _ _ _)]
  rw [latchedAfter_instrTrace _ _ _ _ _ _ (low_half _ _ _)]
  iterate 2 rw [latchedAfter_instrTrace _ _ _ _ _ _ (low_lastByte _ _ _ _)]
  rw [latchedAfter_instrTrace_last _ _ _ _ _ (low_lastByte _ _ _ _)]
  rfl

/-- The nibbles of whole bytes join to the bytes (R82). -/
theorem joinNibbles_bytes (r : Line) (bs : List Byte) :
    joinNibbles (bs.flatMap (fun b => [(r, hiNibble b), (r, loNibble b)])) = bs.map (fun b => (r, b)) := by
  induction bs with
  | nil => rfl
  | cons b bs ih => simp [joinNibbles, hiNibble_append_loNibble, ih]

/-- After the handshake's single nibbles the controller receives the four bytes of R152 and R150. -/
theorem joinNibbles_initTrace (c : Cfg) (bl : Line) (e : BitVec 2) (d : BitVec 3) :
    joinNibbles ((latched (initTrace c bl e d)).drop 4) =
      [(0, 0x28), (0, 0x08 ||| d.setWidth 8), (0, 0x01), (0, 0x04 ||| e.setWidth 8)] := by
  rw [latched_initTrace]
  exact joinNibbles_bytes 0 [0x28, 0x08 ||| d.setWidth 8, 0x01, 0x04 ||| e.setWidth 8]

/-- Settles O49: the flags that `INIT` sends are the bits it sets, the register values being 0. -/
theorem initFromResetGivesTheDefaultDisplay : Obligations.InitFromResetGivesTheDefaultDisplay := by
  intro s hs he hd hout
  have hregs := issue_regs .init hs
  refine ⟨?_, ?_, ?_⟩
  · simpa [State.regs, regsAfter, he, hd] using congrArg Regs.disp hregs
  · simpa [State.regs, regsAfter, he, hd] using congrArg Regs.entry hregs
  · have htrace : (s.issue .init).out = initTrace s.cfg s.bl 0b10 0b100 := by
      simp [issue_out .init hs, hout, traceOf, State.regs, regsAfter, he, hd]
    rw [htrace, joinNibbles_initTrace]
    rfl

/-! ### A whole byte as two nibbles (R70, R131) -/

/-- A full transmission is the half transmissions of its two nibbles. -/
theorem commandTrace_halves (c : Cfg) (bl : Line) (b : Byte) (t : Units) :
    commandTrace c bl b t = halfTrace c bl b c.tGap ++ halfTrace c bl (b <<< 4) t := by
  simp [commandTrace, instrTrace, halfTrace]

theorem hiNibble_shift (b : Byte) : hiNibble (b <<< 4) = loNibble b := by
  unfold hiNibble loNibble
  ext i hi
  simp
  interval_cases i <;> simp

/-- The nibble that is latched when enable falls on the upper half of `b` (R82). -/
theorem nibble_lowered (b : Byte) (rs bl : Line) :
    (rsBit (b &&& 0xF0 ||| staticBits rs bl), hiNibble (b &&& 0xF0 ||| staticBits rs bl)) = (rs, hiNibble b) :=
  Prod.ext (rsBit_lowered b rs bl) (hiNibble_high b rs bl)

/-- The delay needed after a whole instruction byte (R141). -/
def Needs.afterInstr (need : Needs) (b : Byte) : Nat :=
  if hiNibble b = 0 ∧ loNibble b < 4 then need.long else need.settle

section
variable {k : Controller} (hmode : k.mode = some .four)
include hmode

/-- The second nibble of an instruction byte needs the byte's delay. -/
theorem Needs.after_second (need : Needs) (b : Byte) :
    need.after { k with high := some (0, hiNibble b) } (0, loNibble b) = need.afterInstr b := by
  simp [Needs.after, Needs.afterInstr, hmode]

variable (hhigh : k.high = none)
include hhigh

theorem Controller.nibble_first (p : Line × Nibble) : k.nibble p = { k with high := some p } := by
  simp [Controller.nibble, hmode, hhigh]

theorem Controller.nibble_second (r : Line) (b : Byte) :
    Controller.nibble { k with high := some (r, hiNibble b) } (r, loNibble b) = k.byte r b := by
  have h := Controller.foldl_pair k b r hmode hhigh []
  rwa [List.foldl_cons, Controller.nibble_first hmode hhigh] at h

end

/-! ### Watching `INIT` (R150, R266) -/

/-- In the middle of an `INIT`: every delay so far was kept, none is running, and the controller is `k`, which has not
received the entry mode yet. -/
structure Observer.Starting (o : Observer) (k : Controller) : Prop where
  stage   : o.stage = .starting
  ctrl    : o.ctrl = k
  entry   : k.entry = none
  settled : o.due ≤ o.waited
  powered : o.awaiting = 0

section
variable {need : Needs} {c : Cfg} (hn : need.metBy c) {o : Observer} {k : Controller} (h : o.Starting k) (bl : Line)
  (b : Byte) (t : Units)
include hn h

/-- A nibble of an `INIT` before its last. -/
theorem Observer.Starting.half (hk : (k.nibble (0, hiNibble b)).entry = none)
    (ht : need.after k (0, hiNibble b) ≤ t.toNat) :
    (o.watch need ((halfTrace c bl b t).map Sight.event)).Starting (k.nibble (0, hiNibble b)) := by
  obtain ⟨hstage, rfl, hentry, hsettled, hpowered⟩ := h
  have ⟨hen, _⟩ := hn
  have hnibble := nibble_lowered b 0 bl
  rw [halfTrace_pulse, Observer.watch_pulse (enBit_raised b 0 bl) (enBit_lowered b 0 bl) hsettled hpowered hen
    (by rw [hnibble]; exact .inr ⟨hstage, hentry, hk⟩), hnibble]
  exact ⟨hstage, rfl, hk, ht, hpowered⟩

/-- The last nibble of an `INIT`: the controller is ready. -/
theorem Observer.Starting.lastHalf (hmode : (k.nibble (0, hiNibble b)).mode = some .four)
    (hhigh : (k.nibble (0, hiNibble b)).high = none) (hdisp : (k.nibble (0, hiNibble b)).disp ≠ none)
    (hentry : (k.nibble (0, hiNibble b)).entry ≠ none) (ht : need.after k (0, hiNibble b) ≤ t.toNat) :
    (o.watch need ((halfTrace c bl b t).map Sight.event)).Ready ∧
      (o.watch need ((halfTrace c bl b t).map Sight.event)).ctrl = k.nibble (0, hiNibble b) := by
  obtain ⟨hstage, rfl, hnone, hsettled, hpowered⟩ := h
  have ⟨hen, _⟩ := hn
  have hnibble := nibble_lowered b 0 bl
  have hlast := Observer.watch_pulse_last (need := need) (a := c.addr) (t := t) (enBit_raised b 0 bl)
    (enBit_lowered b 0 bl) hsettled hpowered hen hstage hnone
  rw [hnibble] at hlast
  rw [halfTrace_pulse, hlast hmode hhigh hdisp hentry ht]
  refine ⟨⟨rfl, hmode, hhigh, fun a v hv => ?_, ht, hpowered⟩, rfl⟩
  cases hv
  exact enBit_lowered b 0 bl

variable (hmode : k.mode = some .four) (hhigh : k.high = none)
include hmode hhigh

/-- The first nibble of a byte in 4-bit mode waits for its second. -/
theorem Observer.Starting.first :
    (o.watch need ((halfTrace c bl b c.tGap).map Sight.event)).Starting { k with high := some (0, hiNibble b) } := by
  have ⟨_, hgap, _⟩ := hn
  have hnibble := Controller.nibble_first hmode hhigh (0, hiNibble b)
  rw [← hnibble]
  exact h.half hn bl b c.tGap (by rw [hnibble]; exact h.entry) (by simpa [Needs.after, hmode, hhigh] using hgap)

variable {k' : Controller} (hbyte : k.byte 0 b = k') (ht : need.afterInstr b ≤ t.toNat)
include hbyte ht

/-- A whole byte of an `INIT` before its last. -/
theorem Observer.Starting.command (hk : k'.entry = none) :
    (o.watch need ((commandTrace c bl b t).map Sight.event)).Starting k' := by
  have hp := (h.first hn bl b hmode hhigh).half hn bl (b <<< 4) t
  rw [hiNibble_shift, Controller.nibble_second hmode hhigh, Needs.after_second hmode, hbyte] at hp
  rw [commandTrace_halves, List.map_append, Observer.watch_append]
  exact hp hk ht

/-- The last byte of an `INIT`. -/
theorem Observer.Starting.lastCommand (hm : k'.mode = some .four) (hh : k'.high = none) (hd : k'.disp ≠ none)
    (he : k'.entry ≠ none) :
    (o.watch need ((commandTrace c bl b t).map Sight.event)).Ready ∧
      (o.watch need ((commandTrace c bl b t).map Sight.event)).ctrl = k' := by
  have hp := (h.first hn bl b hmode hhigh).lastHalf hn bl (b <<< 4) t
  rw [hiNibble_shift, Controller.nibble_second hmode hhigh, Needs.after_second hmode, hbyte] at hp
  rw [commandTrace_halves, List.map_append, Observer.watch_append]
  exact hp hm hh hd he ht

end

/-! ### `INIT` as a whole -/

/-- A controller in 4-bit mode with no nibble pending, its flags and the space of its pointer known or not. -/
def Controller.inFour (e : Option (BitVec 2)) (d : Option (BitVec 3)) (sp : Option Space) : Controller :=
  { Controller.unknown with mode := some .four, entry := e, disp := d, space := sp }

theorem Needs.afterInstr_display (need : Needs) (d : BitVec 3) :
    need.afterInstr (0x08 ||| d.setWidth 8) = need.settle :=
  if_neg (by decide +revert)

theorem Needs.afterInstr_entryMode (need : Needs) (e : BitVec 2) :
    need.afterInstr (0x04 ||| e.setWidth 8) = need.settle :=
  if_neg (by decide +revert)

section
variable {need : Needs} {c : Cfg} (hn : need.metBy c) {o : Observer} (h : o.Starting Controller.unknown) (bl : Line)
include hn h

/-- The four single nibbles settle the 4-bit mode, whatever the mode was before (R266). -/
theorem Observer.watch_handshake :
    (o.watch need ((halfTrace c bl 0x30 c.tInit1 ++ halfTrace c bl 0x30 c.tInit2 ++ halfTrace c bl 0x30 c.tInit3 ++
      halfTrace c bl 0x20 c.tSettle).map Sight.event)).Starting (Controller.inFour none none none) := by
  have ⟨_, _, hinit1, hinit2, hinit3, hsettle, _, _⟩ := hn
  have hprime1 := h.half hn bl 0x30 c.tInit1 rfl hinit1
  have hprime2 := hprime1.half hn bl 0x30 c.tInit2 rfl hinit2
  have hprime3 := hprime2.half hn bl 0x30 c.tInit3 rfl hinit3
  simp only [List.map_append, Observer.watch_append]
  exact hprime3.half hn bl 0x20 c.tSettle rfl hsettle

/-- What is known when `INIT` has completed (R45, R266, R273). -/
theorem Observer.watch_initTrace (e : BitVec 2) (d : BitVec 3) :
    (o.watch need ((initTrace c bl e d).map Sight.event)).Ready ∧
      (o.watch need ((initTrace c bl e d).map Sight.event)).ctrl =
        Controller.inFour (some e) (some d) (some .ddram) := by
  have ⟨_, _, _, _, _, hsettle, hlong, _⟩ := hn
  have hshaken := Observer.watch_handshake hn h bl
  have hfunction := hshaken.command hn bl 0x28 c.tSettle rfl rfl rfl hsettle rfl
  have hdisplay := hfunction.command hn bl (0x08 ||| d.setWidth 8) c.tSettle rfl rfl (Controller.byte_display _ d)
    (by rwa [Needs.afterInstr_display]) rfl
  have hclear : Observer.Starting _ (Controller.inFour none (some d) (some .ddram)) :=
    hdisplay.command hn bl 0x01 c.tLong rfl rfl rfl hlong rfl
  have hlast := hclear.lastCommand hn bl (0x04 ||| e.setWidth 8) c.tSettle rfl rfl (Controller.byte_entryMode _ e)
    (by rwa [Needs.afterInstr_entryMode]) rfl rfl (Option.some_ne_none d) (Option.some_ne_none e)
  simp only [initTrace, List.map_append, Observer.watch_append] at hlast ⊢
  exact hlast

end

/-- Watching an accepted command to its end is watching its trace. -/
theorem Observer.atEnd_load (need : Needs) (o : Observer) (i : Instr) (s : State) :
    o.atEnd need (s.load (opOf i s.toBuild)) = o.watch need ((traceOf s.cfg i s.regs).map Sight.event) := by
  rw [Observer.atEnd, pending_load]

/-- An `INIT` is accepted in any state of knowledge, once the power-on time has passed (R262, R266). -/
theorem Observer.starting_accepted {o : Observer} (h : o.awaiting = 0) :
    (o.accepted .init).Starting Controller.unknown :=
  ⟨rfl, rfl, rfl, Nat.zero_le _, h⟩

theorem entry_load (i : Instr) (s : State) :
    (s.load (opOf i s.toBuild)).entry = (regsAfter i s.regs).entry := congrArg Regs.entry (regs_load i s)

theorem disp_load (i : Instr) (s : State) :
    (s.load (opOf i s.toBuild)).disp = (regsAfter i s.regs).disp := congrArg Regs.disp (regs_load i s)

theorem traceOf_init (c : Cfg) (r : Regs) :
    traceOf c .init r = initTrace c r.bl (regsAfter .init r).entry (regsAfter .init r).disp := rfl

/-- Settles O45: the trace of `INIT`, watched from its acceptance, makes the controller ready and known. -/
theorem controllerIsKnownAfterInit : Obligations.ControllerIsKnownAfterInit := by
  intro need o s hs hn ho
  refine ⟨_, exec_idle .init hs, ?_⟩
  have hwatch := Observer.watch_initTrace hn (Observer.starting_accepted ho) s.regs.bl
    (regsAfter .init s.regs).entry (regsAfter .init s.regs).disp
  rw [Observer.atEnd_load, traceOf_init, entry_load, disp_load]
  generalize (o.accepted .init).watch need _ = k at hwatch ⊢
  dsimp only
  obtain ⟨hready, hctrl⟩ := hwatch
  rw [Observer.known_ready hready.ready, hctrl]
  exact ⟨hready, rfl, rfl, rfl, rfl, rfl⟩

/-! ### Watching `DEFINE_GLYPH` (R46, R200) -/

/-- The controller is ready, and its flags are those it had. -/
structure Observer.ReadyKeeping (k o : Observer) : Prop where
  ready : k.Ready
  entry : k.ctrl.entry = o.ctrl.entry
  disp  : k.ctrl.disp = o.ctrl.disp

section
variable {need : Needs} {c : Cfg} (hn : need.metBy c) {k o : Observer} (h : k.ReadyKeeping o) (bl : Line)
include hn h

/-- A byte that moves the pointer and nothing else. -/
theorem Observer.ReadyKeeping.instr {rs : Line} {b : Byte} {t : Units} {sp : Option Space} {ad : Option DdramAddr}
    (hbyte : k.ctrl.byte rs b = { k.ctrl with space := sp, addr := ad })
    (ht : (if rs = 1 then need.write else need.afterInstr b) ≤ t.toNat) :
    (k.watch need ((instrTrace c rs bl b t).map Sight.event)).ReadyKeeping o ∧
      (k.watch need ((instrTrace c rs bl b t).map Sight.event)).ctrl = { k.ctrl with space := sp, addr := ad } := by
  obtain ⟨hready, hctrl⟩ := Observer.watch_instrTrace (rs := rs) (bl := bl) (b := b) (t := t) h.ready hn
    (by rw [hbyte]; exact h.ready.four) (by rw [hbyte]; exact h.ready.phase) ht
  rw [hbyte] at hctrl
  have hentry := (congrArg Controller.entry hctrl).trans h.entry
  have hdisp := (congrArg Controller.disp hctrl).trans h.disp
  exact ⟨⟨hready, hentry, hdisp⟩, hctrl⟩

theorem Observer.ReadyKeeping.data (b : Byte) :
    (k.watch need ((dataTrace c bl b).map Sight.event)).ReadyKeeping o := by
  have ⟨_, _, _, _, _, _, _, hwrite⟩ := hn
  exact (h.instr hn bl (Controller.byte_data k.ctrl b) hwrite).1

theorem Observer.ReadyKeeping.datas (bs : List Byte) :
    (k.watch need ((bs.flatMap (dataTrace c bl)).map Sight.event)).ReadyKeeping o := by
  induction bs generalizing k with
  | nil => exact h
  | cons b bs ih =>
    rw [List.flatMap_cons, List.map_append, Observer.watch_append]
    exact ih (h.data hn bl b)

end

/-- The instruction byte that points to a glyph slot moves the pointer and nothing else (R98). -/
theorem Controller.byte_cgram (k : Controller) (a : Byte) :
    k.byte 0 (0x40 ||| ((a &&& 0x07) <<< 3)) = { k with
      space := some .cgram, addr := some (((0x40 ||| ((a &&& 0x07) <<< 3) : Byte).extractLsb' 0 6).setWidth 7) } := by
  simp [Controller.byte]

theorem Needs.afterInstr_cgram (need : Needs) (a : Byte) :
    need.afterInstr (0x40 ||| ((a &&& 0x07) <<< 3)) = need.settle :=
  if_neg (by decide +revert)

/-- What is known when `DEFINE_GLYPH` has ended (R46, R200). -/
theorem Observer.watch_glyphTrace {need : Needs} {c : Cfg} (hn : need.metBy c) {o : Observer} (h : o.Ready) (bl : Line)
    (a : Byte) (g : Payload) :
    (o.watch need ((glyphTrace c bl a g).map Sight.event)).ReadyKeeping o ∧
      (o.watch need ((glyphTrace c bl a g).map Sight.event)).ctrl.space = some .ddram ∧
      (o.watch need ((glyphTrace c bl a g).map Sight.event)).ctrl.addr = some 0 := by
  have ⟨_, _, _, _, _, hsettle, _, _⟩ := hn
  have hstart : o.ReadyKeeping o := ⟨h, rfl, rfl⟩
  have hslot := (hstart.instr hn bl (Controller.byte_cgram o.ctrl a) (t := c.tSettle)
    (by rwa [if_neg (by decide), Needs.afterInstr_cgram])).1
  have hglyph := hslot.datas hn bl (glyphBytes g)
  have hend := hglyph.instr hn bl (Controller.byte_ddram _ 0x80 (by decide)) (t := c.tSettle) hsettle
  rw [glyphBytes_flatMap] at hend
  simp only [glyphTrace, commandTrace, List.map_append, Observer.watch_append]
  exact ⟨hend.1, congrArg Controller.space hend.2, congrArg Controller.addr hend.2⟩

theorem traceOf_defineGlyph (c : Cfg) (a : Byte) (g : Payload) (r : Regs) :
    traceOf c (.defineGlyph a g) r = glyphTrace c r.bl a g := rfl

/-- Settles O46: the trace of `DEFINE_GLYPH`, watched from its acceptance by a ready controller. -/
theorem pointerIsBackInDdramAfterGlyph : Obligations.PointerIsBackInDdramAfterGlyph := by
  intro need o s a g hs hn ho
  refine ⟨_, exec_idle (.defineGlyph a g) hs, ?_⟩
  have hwatch := Observer.watch_glyphTrace hn ho s.regs.bl a g
  rw [Observer.atEnd_load, Observer.accepted_ready ho.ready (by simp), traceOf_defineGlyph]
  generalize o.watch need _ = k at hwatch ⊢
  dsimp only
  obtain ⟨⟨hready, hentry, hdisp⟩, hspace, haddr⟩ := hwatch
  rw [Observer.known_ready hready.ready, Observer.known_ready ho.ready]
  exact ⟨hready, hspace, haddr, hready.four, hready.phase, hentry, hdisp⟩

end Sys2Proof.Machine

/-! # The family of spec/20_memory.md: latched nibbles, the port level, the controller that stays in step -/

namespace Sys2Proof.Machine

/-! ### What the controller receives (R82, R83) -/

/-- Settles O41. -/
theorem latchedNibblesRejoinTheByte : Obligations.LatchedNibblesRejoinTheByte := by
  intro c r bl b n
  have hlatched : latched (instrTrace c r bl b n) = [(r, hiNibble b), (r, loNibble b)] :=
    latchedAfter_instrTrace_last c r bl b n low_none
  exact ⟨hlatched, hlatched ▸ joinNibbles_bytes r [b]⟩

/-- A byte after one with enable low ends no pulse. -/
theorem latchedAfter_append_of_low {prev : Option (BusAddr × Byte)} {xs : List (BusAddr × Byte)}
    (h : Low (xs.getLast?.or prev)) (y : BusAddr × Byte) : latchedAfter prev (xs ++ [y]) = latchedAfter prev xs := by
  induction xs generalizing prev with
  | nil =>
    cases prev with
    | none => rfl
    | some x => simp [latchedAfter, h x.1 x.2 rfl]
  | cons x xs ih =>
    have hlast : Low (xs.getLast?.or (some x)) := by
      cases hxs : xs.getLast? <;> simpa [List.getLast?_cons, hxs] using h
    obtain ⟨a, w⟩ := x
    simp only [List.cons_append, latchedAfter, ih hlast]

theorem txEvents_traceOf_backlight (c : Cfg) (r : Regs) {i : Instr} (hi : i = .backlightOn ∨ i = .backlightOff) :
    ∃ v, txEvents (traceOf c i r) = [(c.addr, v)] := by
  rcases hi with rfl | rfl
  · exact ⟨0x08, rfl⟩
  · exact ⟨0x00, rfl⟩

/-- Settles O42: the backlight's one byte comes after a byte with enable low, if after any. -/
theorem backlightLatchesNothing : Obligations.BacklightLatchesNothing := by
  intro i s hs hi hlow
  obtain ⟨v, hv⟩ := txEvents_traceOf_backlight s.cfg s.regs hi
  rw [issue_out i hs, latched, txEvents_append, hv]
  exact latchedAfter_append_of_low (by simpa [Low] using hlow) _

/-! ### One clock cycle (R84 to R88, R225) -/

theorem cycle_busy {p : PortIn} {s : State} (hr : p.rst = false) (hs : s.seq ≠ []) :
    cycle p s = .next (s.advance p) := by
  simp [cycle, hr, State.not_idle_iff.2 hs]

/-- A cycle without reset: a stutter, a strobe counted, the presented word accepted, or the head of SEQ performed. -/
theorem cycle_cases_of_not_rst {p : PortIn} {s t : State} (hr : p.rst = false) (h : cycle p s = .next t) :
    t = s ∨
    (s.seq ≠ [] ∧ s.tmr ≠ 0 ∧ p.unitTick = true ∧ t = { s with tmr := s.tmr - 1 }) ∨
    (s.seq = [] ∧ p.cmdValid = true ∧ ∃ i, decode p.cmdWord = .ok i ∧ exec i s = .next t) ∨
    (s.seq ≠ [] ∧ t = s.perform) := by
  rcases cycle_cases h with ⟨hrst, -⟩ | ⟨-, -, -, ht⟩ | ⟨-, hs, hv, ht⟩ | ⟨-, -, rfl⟩
  · simp [hr] at hrst
  · exact .inl ht
  · exact .inr (.inr (.inl ⟨hs, hv, ht⟩))
  · rcases advance_cases p s with ht | ⟨hs, htick, htmr, ht⟩ | ⟨hs, ht⟩
    · exact .inl ht
    · exact .inr (.inl ⟨hs, htmr, htick, ht⟩)
    · exact .inr (.inr (.inr ⟨hs, ht⟩))

/-- Settles O50: of the four cases of a cycle, the last two are event-level steps whatever stands in `inputs`. -/
theorem everyCycleIsAStutterOrAStep : Obligations.EveryCycleIsAStutterOrAStep := by
  intro p s t hr h
  rcases cycle_cases_of_not_rst hr h with ht | ht | ⟨hs, hv, i, hw, ht⟩ | ⟨hs, rfl⟩
  · exact .inl ht
  · exact .inr (.inl ht)
  · refine .inr (.inr (.inl ⟨hs, hv, fun rest => ?_⟩))
    exact (stepRunsTheDecodedCommand { s with inputs := .command p.cmdWord :: rest } _ i rest hs rfl hw).trans
      (exec_inputs hs ht rest)
  · exact .inr (.inr (.inr ⟨hs, (step_no_input rfl).trans (congrArg _ (perform_inputs s []))⟩))

/-! ### Runs of cycles (R88) -/

theorem perform_tmr {s : State} (hs : s.seq ≠ []) (n : Units) : State.perform { s with tmr := n } = s.perform := by
  obtain ⟨m, ms, h⟩ := List.exists_cons_of_ne_nil hs
  rw [State.perform_cons h, State.perform_cons (s := { s with tmr := n }) h]
  rfl

theorem exec_tmr (i : Instr) {s : State} (hs : s.seq = []) (n : Units) : exec i { s with tmr := n } = exec i s := by
  rw [exec_idle i hs, exec_idle i (s := { s with tmr := n }) hs]
  exact congrArg Host.Outcome.next (start_tmr { s with
    bl := (opOf i s.toBuild).bl, entry := (opOf i s.toBuild).entry, disp := (opOf i s.toBuild).disp
    seq := (opOf i s.toBuild).steps } n)

/-- The host holds these words on the command port, one after another, and nothing else; TMR is `n`. -/
def State.holding (s : State) (n : Units) (ws : List CmdWord) : State :=
  { s with tmr := n, inputs := ws.map Input.command }

theorem step_holding_busy {s : State} (hs : s.seq ≠ []) (n : Units) (ws : List CmdWord) :
    step (s.holding n ws) = .next (s.perform.holding s.perform.tmr ws) := by
  have hport : (s.holding n ws).inputs = [] ∨ ∃ w rest, (s.holding n ws).inputs = .command w :: rest := by
    cases ws with
    | nil => exact .inl rfl
    | cons w ws => exact .inr ⟨w, ws.map Input.command, rfl⟩
  have hperform : (s.holding n ws).perform = s.perform.holding s.perform.tmr ws :=
    (perform_inputs { s with tmr := n } _).trans (by rw [perform_tmr hs]; rfl)
  rw [step_busy (s := s.holding n ws) hs hport, hperform]

theorem step_holding_idle {s t : State} (hs : s.seq = []) {w : CmdWord} {i : Instr} (hw : decode w = .ok i)
    (ht : exec i s = .next t) (n : Units) (ws : List CmdWord) :
    step (s.holding n (w :: ws)) = .next (t.holding t.tmr ws) :=
  (stepRunsTheDecodedCommand (s.holding n (w :: ws)) w i (ws.map Input.command) hs rfl hw).trans
    (exec_inputs (s := { s with tmr := n }) hs ((exec_tmr i hs n).trans ht) _)

/-- The words presented with `cmd_valid`, in order. -/
def presented (ps : List PortIn) : List CmdWord := (ps.filter PortIn.cmdValid).map PortIn.cmdWord

theorem presented_sublist_cons (p : PortIn) (ps : List PortIn) : (presented ps).Sublist (presented (p :: ps)) :=
  ((List.sublist_cons_self p ps).filter _).map _

theorem presented_cons {p : PortIn} (h : p.cmdValid = true) (ps : List PortIn) :
    presented (p :: ps) = p.cmdWord :: presented ps := by
  simp [presented, h]

/-- The first of some cycles, when they come to a next state. -/
theorem cycles_cons {p : PortIn} {ps : List PortIn} {s t : State} (h : cycles (p :: ps) s = .next t) :
    ∃ u, cycle p s = .next u ∧ cycles ps u = .next t := by
  rw [cycles] at h
  split at h
  · exact ⟨_, ‹_›, h⟩
  · cases h
  · cases h

/-- The event-level run follows the cycles one by one, standing still at a stutter and at a strobe, which is why it may
start with any TMR. -/
theorem cycles_refine {ps : List PortIn} {s t : State} (hr : ∀ p ∈ ps, p.rst = false) (h : cycles ps s = .next t)
    (n : Units) :
    ∃ (ws : List CmdWord) (k : Nat) (u : State),
      ws.Sublist (presented ps) ∧ Host.Core.run Sys2Proof.core k (s.holding n ws) = .next u ∧ u.inputs = [] ∧
      { t with tmr := 0, inputs := [] } = { u with tmr := 0 } := by
  induction ps generalizing s n with
  | nil =>
    cases h
    exact ⟨[], 0, _, .slnil, rfl, rfl, rfl⟩
  | cons p ps ih =>
    obtain ⟨hp, hps⟩ := List.forall_mem_cons.1 hr
    obtain ⟨s', hcycle, hrest⟩ := cycles_cons h
    rcases cycle_cases_of_not_rst hp hcycle with rfl | ⟨-, -, -, rfl⟩ | ⟨hs, hv, i, hw, ht⟩ | ⟨hs, rfl⟩
    · obtain ⟨ws, k, u, hsub, hrun⟩ := ih hps hrest n
      exact ⟨ws, k, u, hsub.trans (presented_sublist_cons p ps), hrun⟩
    · obtain ⟨ws, k, u, hsub, hrun⟩ := ih hps hrest n
      exact ⟨ws, k, u, hsub.trans (presented_sublist_cons p ps), hrun⟩
    · obtain ⟨ws, k, u, hsub, hrun⟩ := ih hps hrest s'.tmr
      refine ⟨p.cmdWord :: ws, k + 1, u, presented_cons hv ps ▸ hsub.cons_cons _, ?_⟩
      rwa [run_succ_of_step (step_holding_idle hs hw ht n ws)]
    · obtain ⟨ws, k, u, hsub, hrun⟩ := ih hps hrest s.perform.tmr
      refine ⟨ws, k + 1, u, hsub.trans (presented_sublist_cons p ps), ?_⟩
      rwa [run_succ_of_step (step_holding_busy hs n ws)]

/-- Settles O51: the event-level run that starts with the TMR of the cycles. -/
theorem cyclesRefineTheEventLevel : Obligations.CyclesRefineTheEventLevel :=
  fun _ s _ hr h => cycles_refine hr h s.tmr

theorem cycles_append {ps qs : List PortIn} {s t : State} (h : cycles ps s = .next t) :
    cycles (ps ++ qs) s = cycles qs t := by
  induction ps generalizing s with
  | nil =>
    cases h
    rfl
  | cons p ps ih =>
    obtain ⟨u, hcycle, hrest⟩ := cycles_cons h
    simp only [List.cons_append, cycles, hcycle]
    exact ih hrest

theorem cycles_singleton {p : PortIn} {s t : State} (h : cycle p s = .next t) : cycles [p] s = .next t := by
  simp only [cycles, h]

/-! ### A wait at the port level (R34, R87) -/

/-- The unit strobes of some cycles. -/
def strobes (ps : List PortIn) : Nat := (ps.filter PortIn.unitTick).length

theorem strobes_cons (p : PortIn) (ps : List PortIn) : strobes (p :: ps) = strobes ps + p.unitTick.toNat := by
  cases h : p.unitTick <;> simp [strobes, h]

section
variable {s : State} {l : Latches} {n : Units} {ms : List Micro} (hs : s.seq = ⟨l, .wait n⟩ :: ms) {p : PortIn}
include hs

theorem advance_wait :
    s.advance p = if p.unitTick then (if s.tmr = 0 then s.perform else { s with tmr := s.tmr - 1 }) else s := by
  simp only [State.advance, hs]

variable (hr : p.rst = false)
include hr

/-- A cycle of a wait takes its strobe, if it has one, off TMR. -/
theorem cycle_wait_counts (hle : p.unitTick.toNat ≤ s.tmr.toNat) :
    ∃ r, cycle p s = .next { s with tmr := r } ∧ r.toNat + p.unitTick.toNat = s.tmr.toNat := by
  rw [cycle_busy hr (by simp [hs])]
  cases htick : p.unitTick with
  | false => exact ⟨s.tmr, by rw [advance_wait hs, htick]; rfl, rfl⟩
  | true =>
    rw [htick, Bool.toNat_true] at hle
    have htmr : s.tmr ≠ 0 := by bv_omega
    refine ⟨s.tmr - 1, by rw [advance_wait hs, if_pos htick, if_neg htmr], ?_⟩
    rw [Bool.toNat_true]
    bv_omega

/-- The strobe that finds TMR at 0 ends the wait. -/
theorem cycle_wait_ends (htick : p.unitTick = true) (htmr : s.tmr = 0) : cycle p s = .next s.perform := by
  rw [cycle_busy hr (by simp [hs]), advance_wait hs, if_pos htick, if_pos htmr]

end

/-- TMR counts the strobes of a wait as long as it has enough left. -/
theorem cycles_wait_count {ps : List PortIn} {s : State} {l : Latches} {n : Units} {ms : List Micro}
    (hs : s.seq = ⟨l, .wait n⟩ :: ms) (hr : ∀ p ∈ ps, p.rst = false) (hle : strobes ps ≤ s.tmr.toNat) :
    ∃ r, cycles ps s = .next { s with tmr := r } ∧ r.toNat + strobes ps = s.tmr.toNat := by
  induction ps generalizing s with
  | nil => exact ⟨s.tmr, rfl, rfl⟩
  | cons p ps ih =>
    obtain ⟨hp, hps⟩ := List.forall_mem_cons.1 hr
    rw [strobes_cons] at hle ⊢
    obtain ⟨q, hcycle, hq⟩ := cycle_wait_counts hs hp (by omega)
    obtain ⟨r, hrest, hcount⟩ := ih (s := { s with tmr := q }) hs hps (by simp only; omega)
    simp only at hcount
    exact ⟨r, by rw [cycles, hcycle]; exact hrest, by omega⟩

/-- Settles O52: TMR has counted all `n` strobes down to 0, and the next one ends the wait. -/
theorem waitCountsItsStrobes : Obligations.WaitCountsItsStrobes := by
  intro ps s l n ms hs htmr hr
  subst htmr
  refine ⟨fun hle => ?_, fun p hp htick hall => ?_⟩
  · obtain ⟨r, hrun, hcount⟩ := cycles_wait_count hs hr hle
    exact ⟨_, hrun, rfl, rfl, hcount⟩
  · obtain ⟨r, hrun, hcount⟩ := cycles_wait_count hs hr (Nat.le_of_eq hall)
    have hzero : r = 0 := by
      have hall : strobes ps = s.tmr.toNat := hall
      bv_omega
    have hend := cycle_wait_ends (s := { s with tmr := r }) hs hp htick hzero
    refine ⟨_, (cycles_append hrun).trans (cycles_singleton hend), ?_, ?_⟩
    · simp [hs]
    · simp [State.perform_cons (s := { s with tmr := r }) hs, Act.event]

/-! ### A transaction at the port level (R86) -/

section
variable {s : State} {l : Latches} {v : Byte} {ms : List Micro} (hs : s.seq = ⟨l, .tx v⟩ :: ms)
include hs

theorem advance_tx (p : PortIn) : s.advance p = if p.txReady then s.perform else s := by
  simp [State.advance, hs]

theorem cycles_tx_waits {ps : List PortIn} (hps : ∀ p ∈ ps, p.rst = false ∧ p.txReady = false) :
    cycles ps s = .next s := by
  induction ps with
  | nil => rfl
  | cons p ps ih =>
    obtain ⟨⟨hr, hready⟩, hrest⟩ := List.forall_mem_cons.1 hps
    rw [cycles, cycle_busy hr (by simp [hs]), advance_tx hs, hready]
    exact ih hrest

theorem perform_tx_expanderLines : s.perform.expanderLines = some v := by
  rw [State.expanderLines, State.perform_cfg, State.perform_cons hs, State.start_bus]
  exact Memory.read_write_same s.bus _ v

end

/-- Settles O53: nothing changes until `tx_ready`, which performs the `TX`. -/
theorem transactionIsHeldUntilReady : Obligations.TransactionIsHeldUntilReady := by
  intro ps s l v ms hs hps
  have hwaits := cycles_tx_waits hs hps
  refine ⟨hwaits, fun p hr => ⟨?_, rfl, ?_, fun hready => ?_⟩⟩
  · simp [portOut, State.txRequest, hs, hr]
  · simp [portOut, State.txRequest, hs, hr]
  · have hend : cycle p s = .next s.perform := by
      rw [cycle_busy hr (by simp [hs]), advance_tx hs, if_pos hready]
    refine ⟨_, (cycles_append hwaits).trans (cycles_singleton hend), by simp [hs], ?_, perform_tx_expanderLines hs⟩
    simp [State.perform_cons hs, Act.event]

/-! ### The command port (R85) -/

theorem cmdReady_iff (p : PortIn) (s : State) : (portOut p s).cmdReady = true ↔ s.seq = [] ∧ p.rst = false := by
  simp [portOut, State.idle]

theorem busy_iff (p : PortIn) (s : State) : (portOut p s).busy = true ↔ s.seq ≠ [] ∧ p.rst = false := by
  simp [portOut, State.idle]

/-- Settles O54. -/
theorem commandTransferNeedsReadyAndValid : Obligations.CommandTransferNeedsReadyAndValid := by
  intro p s
  refine ⟨cmdReady_iff p s, fun hready hv i hw => ?_, fun hready hv => ?_, fun hbusy w v => ?_⟩
  · obtain ⟨hs, hr⟩ := (cmdReady_iff p s).1 hready
    simp [cycle, hr, State.idle_iff.2 hs, hv, acceptWord, hw]
  · obtain ⟨hs, hr⟩ := (cmdReady_iff p s).1 hready
    simp [cycle, hr, State.idle_iff.2 hs, hv]
  · obtain ⟨hs, hr⟩ := (busy_iff p s).1 hbusy
    rw [cycle_busy hr hs, cycle_busy (p := { p with cmdWord := w, cmdValid := v }) hr hs]
    rfl

/-! ### The controller that stays in step (R28, R70, R143, R273) -/

/-- The controller is ready, and its flags are those of the registers; its entry-mode flags may be open (N13). -/
structure Observer.Agrees (k : Observer) (r : Regs) : Prop where
  ready : k.Ready
  disp  : k.ctrl.disp = some r.disp
  entry : k.ctrl.entry = some r.entry ∨ k.ctrl.entry = none

theorem Observer.inStep_iff {need : Needs} {o : Observer} {s : State} :
    o.InStep need s ↔ (o.atEnd need s).Agrees s.regs := by
  constructor
  · rintro ⟨hready, hdisp, hentry⟩
    rw [Observer.known_ready hready.ready] at hdisp hentry
    exact ⟨hready, hdisp, hentry⟩
  · rintro ⟨hready, hdisp, hentry⟩
    rw [← Observer.known_ready hready.ready] at hdisp hentry
    exact ⟨hready, hdisp, hentry⟩

/-- A controller that keeps its flags agrees with registers whose flags are kept. -/
theorem Observer.ReadyKeeping.agrees {k o : Observer} (hk : k.ReadyKeeping o) {r r' : Regs} (h : o.Agrees r)
    (hdisp : r'.disp = r.disp) (hentry : r'.entry = r.entry) : k.Agrees r' := by
  obtain ⟨hready, hkentry, hkdisp⟩ := hk
  refine ⟨hready, ?_, ?_⟩
  · rw [hkdisp, hdisp, h.disp]
  · rw [hkentry, hentry]
    exact h.entry

theorem le_cursorByte (c : Cfg) (a b : Byte) : 0x80 ≤ cursorByte c a b := by
  rw [← setDdramInstr_cursorAddr, BitVec.le_def, setDdramInstr_toNat]
  exact Nat.le_add_right _ _

theorem Needs.afterInstr_ddram (need : Needs) {b : Byte} (h : 0x80 ≤ b) : need.afterInstr b = need.settle := by
  have hhigh : ∀ b : Byte, 0x80 ≤ b → hiNibble b ≠ 0 := by decide
  exact if_neg fun hlow => hhigh b h hlow.1

/-- A backlight byte moves no line that an initialised controller listens to (R82, R215). -/
theorem Observer.watch_low_byte {need : Needs} {o : Observer} (h : o.Ready) {a : BusAddr} {v : Byte}
    (hv : enBit v = 0) : (o.watch need ([Event.tx a v].map Sight.event)).ReadyKeeping o := by
  have hsee : o.watch need ([Event.tx a v].map Sight.event) = { o with line := some (a, v) } := by
    show o.byte need a v = _
    unfold Observer.byte
    rw [if_neg (by rw [hv]; decide)]
    cases hline : o.line with
    | none => rfl
    | some x => simp [h.lineLow x.1 x.2 hline]
  rw [hsee]
  refine ⟨⟨h.ready, h.four, h.phase, fun b w hw => ?_, h.settled, h.powered⟩, rfl, rfl⟩
  cases hw
  exact hv

section
variable {need : Needs} {c : Cfg} (hn : need.metBy c) {o : Observer} (bl : Line)
include hn

/-- An instruction byte that sets the flags, and its wait. -/
theorem Observer.Ready.command {b : Byte} {t : Units} (h : o.Ready) {e : Option (BitVec 2)} {d : Option (BitVec 3)}
    {sp : Option Space} {ad : Option DdramAddr}
    (hbyte : o.ctrl.byte 0 b = { o.ctrl with entry := e, disp := d, space := sp, addr := ad })
    (ht : need.afterInstr b ≤ t.toNat) {r : Regs} (hdisp : d = some r.disp) (hentry : e = some r.entry ∨ e = none) :
    (o.watch need ((commandTrace c bl b t).map Sight.event)).Agrees r := by
  obtain ⟨hready, hctrl⟩ := Observer.watch_instrTrace (rs := 0) (bl := bl) (b := b) (t := t) h hn
    (by rw [hbyte]; exact h.four) (by rw [hbyte]; exact h.phase) ht
  rw [hbyte] at hctrl
  refine ⟨hready, (congrArg Controller.disp hctrl).trans hdisp, ?_⟩
  exact (congrArg Controller.entry hctrl) ▸ hentry

variable {r : Regs} (h : o.Agrees r)
include h

/-- The entry-mode instruction with the new value of ENTRY (R174). -/
theorem Observer.Agrees.entryMode (e : BitVec 2) :
    (o.watch need ((commandTrace c bl (0x04 ||| e.setWidth 8) c.tSettle).map Sight.event)).Agrees
      { r with entry := e } := by
  have ⟨_, _, _, _, _, hsettle, _, _⟩ := hn
  exact h.ready.command hn bl (Controller.byte_entryMode _ e) (by rwa [Needs.afterInstr_entryMode]) h.disp (.inl rfl)

/-- The display-control instruction with the new value of DISP (R186). -/
theorem Observer.Agrees.display (d : BitVec 3) :
    (o.watch need ((commandTrace c bl (0x08 ||| d.setWidth 8) c.tSettle).map Sight.event)).Agrees
      { r with disp := d } := by
  have ⟨_, _, _, _, _, hsettle, _, _⟩ := hn
  exact h.ready.command hn bl (Controller.byte_display _ d) (by rwa [Needs.afterInstr_display]) rfl h.entry

/-- An instruction that leaves the flags as they are. -/
theorem Observer.Agrees.keeping {b : Byte} {t : Units} {sp : Option Space} {ad : Option DdramAddr}
    (hbyte : o.ctrl.byte 0 b = { o.ctrl with space := sp, addr := ad }) (ht : need.afterInstr b ≤ t.toNat) :
    (o.watch need ((commandTrace c bl b t).map Sight.event)).Agrees r :=
  h.ready.command hn bl hbyte ht h.disp h.entry

/-- Every command keeps an initialised controller in step with the registers it leaves. -/
theorem Observer.Agrees.watch_traceOf (i : Instr) :
    ((o.accepted i).watch need ((traceOf c i r).map Sight.event)).Agrees (regsAfter i r) := by
  have ⟨_, _, _, _, _, hsettle, hlong, _⟩ := hn
  have hkept : o.ReadyKeeping o := ⟨h.ready, rfl, rfl⟩
  by_cases hi : i = .init
  · subst hi
    obtain ⟨hready, hctrl⟩ := Observer.watch_initTrace hn (Observer.starting_accepted h.ready.powered) r.bl
      (regsAfter .init r).entry (regsAfter .init r).disp
    exact ⟨hready, congrArg Controller.disp hctrl, .inl (congrArg Controller.entry hctrl)⟩
  · rw [Observer.accepted_ready h.ready.ready hi]
    cases i with
    | init => exact absurd rfl hi
    | clear => exact h.ready.command hn r.bl (b := 0x01) rfl hlong h.disp (.inr rfl)
    | home => exact h.keeping hn r.bl (b := 0x02) rfl hlong
    | leftToRight | rightToLeft | autoscrollOn | autoscrollOff => exact h.entryMode hn r.bl _
    | displayOn | displayOff | cursorOn | cursorOff | blinkOn | blinkOff => exact h.display hn r.bl _
    | scrollLeft => exact h.keeping hn r.bl (b := 0x18) rfl hsettle
    | scrollRight => exact h.keeping hn r.bl (b := 0x1C) rfl hsettle
    | setCursor a b =>
      have hb := le_cursorByte c a b
      exact h.keeping hn r.bl (Controller.byte_ddram _ _ hb) (by rwa [Needs.afterInstr_ddram need hb])
    | writeChar a => exact (hkept.data hn r.bl a).agrees h rfl rfl
    | defineGlyph a g => exact (Observer.watch_glyphTrace hn h.ready r.bl a g).1.agrees h rfl rfl
    | backlightOn => exact (Observer.watch_low_byte h.ready (by decide)).agrees h rfl rfl
    | backlightOff => exact (Observer.watch_low_byte h.ready (by decide)).agrees h rfl rfl

end

/-- A step without reset shows the head of SEQ and performs it, or shows the acceptance of a command and makes it. -/
theorem step_sights_cases {s t : State} (hr : ∀ rest, s.inputs ≠ .reset :: rest) (h : step s = .next t) :
    (∃ r, t = { s.perform with inputs := r } ∧ s.sights = s.headSight) ∨
    (∃ i r, s.seq = [] ∧ s.sights = [.accepted i] ∧ exec i { s with inputs := r } = .next t) := by
  cases hin : s.inputs with
  | nil =>
    rw [step_no_input hin] at h
    cases h
    exact .inl ⟨s.perform.inputs, rfl, by simp [State.sights, hin]⟩
  | cons x rest =>
    cases x with
    | reset => exact absurd hin (hr rest)
    | pass =>
      rw [step_pass hin] at h
      cases h
      exact .inl ⟨rest, rfl, by simp [State.sights, hin]⟩
    | command w =>
      by_cases hs : s.seq = []
      · cases hw : decode w with
        | ok i =>
          rw [stepRunsTheDecodedCommand s w i rest hs hin hw] at h
          exact .inr ⟨i, rest, hs, by simp [State.sights, hin, State.idle_iff.2 hs, hw], h⟩
        | error e =>
          obtain ⟨op⟩ := e
          simp [step, hin, State.idle_iff.2 hs, hw] at h
      · rw [step_busy hs (.inr ⟨w, rest, hin⟩)] at h
        cases h
        exact .inl ⟨s.perform.inputs, rfl, by simp [State.sights, hin, State.not_idle_iff.2 hs]⟩

theorem Observer.atEnd_idle {need : Needs} {o : Observer} {s : State} (hs : s.seq = []) : o.atEnd need s = o := by
  simp [Observer.atEnd, State.pending, hs]

/-- Settles O60: a micro-step was already counted in what the watcher will know at the end, and a command is watched
from its acceptance. -/
theorem initialisedControllerStaysInStep : Obligations.InitialisedControllerStaysInStep := by
  intro need o s t hn hr h hstep
  rw [Observer.inStep_iff] at h ⊢
  rcases step_sights_cases hr hstep with ⟨r, rfl, hsights⟩ | ⟨i, r, hs, hsights, ht⟩
  · have hend : (o.watch need s.headSight).atEnd need { s.perform with inputs := r } = o.atEnd need s :=
      Observer.atEnd_perform need o s
    have hregs : State.regs { s.perform with inputs := r } = s.regs := perform_regs s
    rwa [hsights, hend, hregs]
  · rw [Observer.atEnd_idle hs] at h
    set u : State := { s with inputs := r }
    rw [exec_idle i (s := u) hs] at ht
    cases ht
    rw [hsights, Observer.atEnd_load, regs_load]
    exact h.watch_traceOf hn i

end Sys2Proof.Machine

/-! # The family of spec/30_encoding.md: the command word, whole enable pulses, instruction bytes, the text form -/

namespace Sys2Proof

/-! ### The command word (R102 to R106) -/

/-- A packed word determines its four fields (R102). -/
@[simp] theorem packWord_inj {op a b op' a' b' : Byte} {g g' : Payload} :
    packWord op a b g = packWord op' a' b' g' ↔ op = op' ∧ a = a' ∧ b = b' ∧ g = g' := by
  refine ⟨fun h => ⟨?_, ?_, ?_, ?_⟩, fun ⟨hop, ha, hb, hg⟩ => by rw [hop, ha, hb, hg]⟩
  · simpa using congrArg opField h
  · simpa using congrArg aField h
  · simpa using congrArg bField h
  · simpa using congrArg gField h

/-- A packed word is its fields shifted to their places (R109). -/
theorem packWord_eq_shifts (op a b : Byte) (g : Payload) :
    packWord op a b g =
      (op.setWidth 88 <<< 80) ||| (a.setWidth 88 <<< 72) ||| (b.setWidth 88 <<< 64) ||| g.setWidth 88 := by
  unfold packWord
  ext i hi
  simp
  grind

/-- Decoding inverted: a word decodes to `i` exactly when it is the word of `i` up to the fields that the format of `i`
ignores (R103, R104, R109). -/
theorem decode_eq_ok_iff {w : CmdWord} {i : Instr} : decode w = .ok i ↔ clearIgnored i.format w = encode i := by
  constructor
  · intro h
    unfold decode at h
    split at h
    case h_21 => cases h
    all_goals
      cases h
      simp only [clearIgnored, Instr.format, encode, packWord_inj]
      simp [BitVec.toNat_eq, *]
  · intro h
    cases i
    all_goals
      simp only [clearIgnored, Instr.format, encode, packWord_inj] at h
      simp [decode, h]

/-- Decoding fails exactly on the reserved opcodes, and names the opcode (R106). -/
theorem decode_eq_error_iff {w : CmdWord} {op : Byte} :
    decode w = .error (.reserved op) ↔ opField w = op ∧ (opField w = 0x00 ∨ 0x15 ≤ opField w) := by
  unfold decode
  split
  case h_21 =>
    have hreserved : opField w = 0x00 ∨ 0x15 ≤ opField w := by
      simp only [imp_false] at *
      bv_omega
    simp only [Except.error.injEq, DecodeError.reserved.injEq, hreserved, and_true]
  all_goals simp [BitVec.toNat_eq, BitVec.le_def, *]

/-- Two words that agree in the opcode and in the fields a format uses differ in ignored fields only (R103). -/
theorem clearIgnored_congr {f : Format} {w w' : CmdWord} (hop : opField w' = opField w)
    (ha : f ≠ .n → aField w' = aField w) (hb : f = .ab → bField w' = bField w) (hg : f = .ag → gField w' = gField w) :
    clearIgnored f w' = clearIgnored f w := by
  cases f with
  | n => simp [clearIgnored, hop]
  | a => simp [clearIgnored, hop, ha]
  | ab => simp [clearIgnored, hop, ha, hb]
  | ag => simp [clearIgnored, hop, ha, hg]

/-- Settles O1. -/
theorem decodeOfEncodeIsIdentity : Obligations.DecodeOfEncodeIsIdentity := fun i _ => decode_encode i

/-- Settles O2. -/
theorem encodeOfDecodeClearsOnlyIgnoredFields : Obligations.EncodeOfDecodeClearsOnlyIgnoredFields :=
  fun _ _ h => (decode_eq_ok_iff.1 h).symm

/-- Settles O3: both words are the command's word up to ignored fields. -/
theorem ignoredFieldsHaveNoEffect : Obligations.IgnoredFieldsHaveNoEffect := by
  refine ⟨fun w w' i h hop ha hb hg => ?_, fun g k j _ hj => ?_⟩
  · rw [decode_eq_ok_iff] at h ⊢
    rw [clearIgnored_congr hop ha hb hg, h]
  · simp [Machine.glyphByte, hj]

/-- Settles O5: every word is packed from its fields, and packing shifts them. -/
theorem assembledWordIsShiftedFields : Obligations.AssembledWordIsShiftedFields := by
  refine ⟨by decide, fun a g => ?_, fun a b => ?_, fun a => ?_, by decide⟩
  · simp [encode, packWord_eq_shifts]
  · simp [encode, packWord_eq_shifts]
  · simp [encode, packWord_eq_shifts]

/-- Settles O6. -/
theorem wordsOfEachFamilyDecode : Obligations.WordsOfEachFamilyDecode := by
  unfold Obligations.WordsOfEachFamilyDecode
  decide

end Sys2Proof

namespace Sys2Proof.Machine

/-- Settles O4: the idle engine decodes the presented word, and decoding fails on the reserved opcodes and no others. -/
theorem reservedWordsAreRefused : Obligations.ReservedWordsAreRefused := by
  refine ⟨fun s w rest hs hin hop => ?_, fun p s hready hv hop => ?_, fun w hzero hlt => ?_⟩
  · have hw := decode_eq_error_iff.2 ⟨rfl, hop⟩
    simp [step, hin, State.idle_iff.2 hs, hw]
  · have hw := decode_eq_error_iff.2 ⟨rfl, hop⟩
    obtain ⟨hs, hr⟩ := (cmdReady_iff p s).1 hready
    simp [cycle, hr, State.idle_iff.2 hs, hv, acceptWord, hw]
  · cases hw : decode w with
    | ok i => exact ⟨i, rfl⟩
    | error e =>
      obtain ⟨op⟩ := e
      obtain ⟨-, hreserved⟩ := decode_eq_error_iff.1 hw
      exact absurd hreserved (not_or.2 ⟨hzero, BitVec.not_le.2 hlt⟩)

/-! ### The transport byte (R90, R120) -/

/-- Bit 0 of a frame is RS (R90). -/
theorem rsBit_frame (l : Latches) (bl : Line) (nib : Nibble) : rsBit (frame l bl nib) = l.rs := by
  unfold rsBit frame
  ext i hi
  obtain rfl : i = 0 := by omega
  simp

/-- Bit 3 of a frame is BL (R90). -/
theorem blBit_frame (l : Latches) (bl : Line) (nib : Nibble) : blBit (frame l bl nib) = bl := by
  unfold blBit frame
  ext i hi
  obtain rfl : i = 0 := by omega
  simp

/-- Bits 7:4 of a frame are the nibble (R90). -/
theorem hiNibble_frame (l : Latches) (bl : Line) (nib : Nibble) : hiNibble (frame l bl nib) = nib := by
  unfold hiNibble frame
  ext i hi
  simp
  interval_cases i <;> simp

/-- Settles O7. -/
theorem frameBitLayout : Obligations.FrameBitLayout := fun l bl nib =>
  ⟨rsBit_frame l bl nib, rwBit_frame l bl nib, enBit_frame l bl nib, blBit_frame l bl nib, hiNibble_frame l bl nib⟩

/-! ### Whole enable pulses (R91, R130) -/

theorem pulsesWhole_nil (tEn : Units) : pulsesWhole tEn [] := rfl

/-- A byte with enable low starts no pulse. -/
theorem pulsesWhole_low_byte {tEn : Units} {a : BusAddr} {v : Byte} (h : enBit v = 0) :
    pulsesWhole tEn [.tx a v] := by
  simp [pulsesWhole, pulseScan, pulseNext, h]

theorem pulsesWhole_flatMap {α : Type} {tEn : Units} {f : α → List Event} (h : ∀ x, pulsesWhole tEn (f x))
    (xs : List α) : pulsesWhole tEn (xs.flatMap f) := by
  induction xs with
  | nil => exact pulsesWhole_nil tEn
  | cons x xs ih => exact pulsesWhole_append (h x) ih

/-- Every command sends whole pulses (R91). -/
theorem pulsesWhole_traceOf (c : Cfg) (i : Instr) (r : Regs) : pulsesWhole c.tEn (traceOf c i r) := by
  have hhalf (b : Byte) (t : Units) := pulsesWhole_halfTrace c r.bl b t
  have hcommand (b : Byte) (t : Units) : pulsesWhole c.tEn (commandTrace c r.bl b t) :=
    pulsesWhole_instrTrace c 0 r.bl b t
  have hdata (b : Byte) : pulsesWhole c.tEn (dataTrace c r.bl b) := pulsesWhole_instrTrace c 1 r.bl b c.tWrite
  cases i with
  | init =>
    simp only [traceOf, initTrace]
    iterate 7 apply pulsesWhole_append
    all_goals simp only [hhalf, hcommand]
  | defineGlyph a g =>
    have hglyph := pulsesWhole_flatMap (fun k => hdata ((g >>> (8 * k)).setWidth 8)) (List.range 8)
    exact pulsesWhole_append (pulsesWhole_append (hcommand _ _) hglyph) (hcommand _ _)
  | writeChar a => exact hdata a
  | backlightOn | backlightOff => exact pulsesWhole_low_byte (by decide)
  | _ => exact hcommand _ _

/-- Settles O30: a micro-step leaves the committed trace as it is, a reset empties it, and an accepted command appends its
own to what an idle engine has sent. -/
theorem everyStepKeepsPulsesWhole : Obligations.EveryStepKeepsPulsesWhole := by
  intro s t h hstep
  rcases step_cases hstep with ⟨r, rfl⟩ | ⟨rest, -, rfl⟩ | ⟨w, i, rest, hs, -, -, ht⟩
  · rw [committed_perform, State.perform_cfg]
    exact h
  · exact pulsesWhole_nil _
  · rw [exec_idle i (s := { s with inputs := rest }) hs] at ht
    cases ht
    have hsent : pulsesWhole s.cfg.tEn s.out := by simpa [State.committed, State.pending, hs] using h
    rw [State.committed, pending_load, State.load_out, State.load_cfg]
    exact pulsesWhole_append hsent (pulsesWhole_traceOf s.cfg i _)

/-! ### The instruction bytes (R92 to R99, R101) -/

/-- The instruction bytes that the engine sends (R92 to R99). -/
def ListedInstr (b : Byte) : Prop :=
  b = 0x01 ∨ b = 0x02 ∨ (0x04 ≤ b ∧ b ≤ 0x0F) ∨ b = 0x18 ∨ b = 0x1C ∨ b = 0x28 ∨
    (0x40 ≤ b ∧ b < 0x80 ∧ b &&& 0x07 = 0) ∨ 0x80 ≤ b

theorem listedInstr_entryMode (e : BitVec 2) : ListedInstr (0x04 ||| e.setWidth 8) := by
  unfold ListedInstr
  decide +revert

theorem listedInstr_display (d : BitVec 3) : ListedInstr (0x08 ||| d.setWidth 8) := by
  unfold ListedInstr
  decide +revert

theorem listedInstr_slot (a : Byte) : ListedInstr (0x40 ||| ((a &&& 0x07) <<< 3)) := by
  unfold ListedInstr
  decide +revert

theorem listedInstr_cursor (c : Cfg) (a b : Byte) : ListedInstr (cursorByte c a b) := by
  simp only [ListedInstr, le_cursorByte, or_true]

/-- The two nibbles of a byte at the head of a list join to the byte (R82). -/
theorem joinNibbles_cons_byte (r : Line) (b : Byte) (rest : List (Line × Nibble)) :
    joinNibbles ((r, hiNibble b) :: (r, loNibble b) :: rest) = (r, b) :: joinNibbles rest := by
  simp [joinNibbles, hiNibble_append_loNibble]

theorem joinNibbles_commandTrace (c : Cfg) (bl : Line) (b : Byte) (t : Units) :
    joinNibbles (latched (commandTrace c bl b t)) = [(0, b)] :=
  (latchedNibblesRejoinTheByte c 0 bl b t).2


/-- The bytes of `DEFINE_GLYPH` (R200): the slot's address, the eight data bytes, DDRAM address 0. -/
theorem joinNibbles_glyphTrace (c : Cfg) (bl : Line) (a : Byte) (g : Payload) :
    joinNibbles (latched (glyphTrace c bl a g)) =
      ((0 : Line), (0x40 : Byte) ||| ((a &&& 0x07) <<< 3)) ::
        (List.range 8).map (fun k => ((1 : Line), (g >>> (8 * k)).setWidth 8)) ++ [((0 : Line), (0x80 : Byte))] := by
  rw [latched_glyphTrace]
  simp only [List.range, List.range.loop, List.flatMap_cons, List.flatMap_nil, List.map_cons, List.map_nil,
    List.cons_append, List.nil_append, joinNibbles_cons_byte]
  rfl

/-- Every byte that a command sends with RS = 0 is listed (R101). -/
theorem listedInstr_of_mem_traceOf {c : Cfg} {i : Instr} {r : Regs} {b : Byte}
    (h : (0, b) ∈ joinNibbles ((latched (traceOf c i r)).drop (if i = .init then 4 else 0))) : ListedInstr b := by
  have hcommand {v : Byte} {t : Units} (hv : ListedInstr v)
      (hb : (0, b) ∈ joinNibbles (latched (commandTrace c r.bl v t))) : ListedInstr b := by
    rw [joinNibbles_commandTrace] at hb
    obtain rfl : b = v := by simpa using hb
    exact hv
  cases i with
  | init =>
    rw [traceOf_init, if_pos rfl, joinNibbles_initTrace] at h
    simp only [List.mem_cons, Prod.mk.injEq, true_and, List.not_mem_nil, or_false] at h
    rcases h with rfl | rfl | rfl | rfl
    · simp [ListedInstr]
    · exact listedInstr_display _
    · simp [ListedInstr]
    · exact listedInstr_entryMode _
  | clear | home | scrollLeft | scrollRight => exact hcommand (by simp [ListedInstr]) h
  | leftToRight | rightToLeft | autoscrollOn | autoscrollOff => exact hcommand (listedInstr_entryMode _) h
  | displayOn | displayOff | cursorOn | cursorOff | blinkOn | blinkOff => exact hcommand (listedInstr_display _) h
  | setCursor x y => exact hcommand (listedInstr_cursor c x y) h
  | defineGlyph a g =>
    have hb : (0, b) ∈ joinNibbles (latched (glyphTrace c r.bl a g)) := h
    rw [joinNibbles_glyphTrace] at hb
    have hcases : b = 0x40 ||| ((a &&& 0x07) <<< 3) ∨ b = 0x80 := by simpa using hb
    rcases hcases with rfl | rfl
    · exact listedInstr_slot a
    · simp [ListedInstr]
  | writeChar a =>
    have hb : (0, b) ∈ joinNibbles (latched (dataTrace c r.bl a)) := h
    rw [dataTrace, (latchedNibblesRejoinTheByte c 1 r.bl a c.tWrite).2] at hb
    simp at hb
  | backlightOn | backlightOff => exact absurd h List.not_mem_nil

/-- Settles O43. -/
theorem onlyListedInstructionBytesAreSent : Obligations.OnlyListedInstructionBytesAreSent := by
  intro i s hs
  refine ⟨_, exec_idle i hs, fun b hb => ?_⟩
  rw [pending_load] at hb
  exact listedInstr_of_mem_traceOf hb

/-! ### The run of a program, and `PRINT` (R77, R112) -/

/-- A program issued to an idle engine: it ends idle, its traces are sent in order, and its registers are left. -/
theorem issueAll_idle (is : List Instr) {s : State} (hs : s.seq = []) :
    (s.issueAll is).seq = [] ∧ (s.issueAll is).out = s.out ++ traceOfAll s.cfg is s.regs ∧
      (s.issueAll is).regs = regsAfterAll is s.regs := by
  induction is generalizing s with
  | nil => exact ⟨hs, by simp [State.issueAll, traceOfAll], rfl⟩
  | cons i is ih =>
    obtain ⟨hseq, hout, hregs⟩ := ih (issue_seq i hs)
    rw [issue_out i hs, issue_cfg i hs, issue_regs i hs, List.append_assoc] at hout
    rw [issue_regs i hs] at hregs
    exact ⟨hseq, hout, hregs⟩

/-- `PRINT` writes no register (R112, R202). -/
theorem regsAfterAll_expandPrint (text : List Byte) (r : Regs) : regsAfterAll (expandPrint text) r = r := by
  induction text with
  | nil => rfl
  | cons b text ih => exact ih

theorem traceOfAll_expandPrint (c : Cfg) (text : List Byte) (r : Regs) :
    traceOfAll c (expandPrint text) r = text.flatMap (dataTrace c r.bl) := by
  induction text with
  | nil => rfl
  | cons b text ih => exact congrArg (dataTrace c r.bl b ++ ·) ih

/-! ### Lines of the text form (R108) -/

/-- The characters of the names of R104. -/
def isNameChar (c : Char) : Bool := c.isAlpha || c == '_'

theorem ne_of_isNameChar {c : Char} (hc : isNameChar c = true) {d : Char} (hd : isNameChar d = false) : c ≠ d := by
  rintro rfl
  simp [hc] at hd

theorem lexLine_nameChar {c : Char} (hc : isNameChar c = true) (acc cs : List Char) :
    lexLine none acc (c :: cs) = lexLine none (c :: acc) cs := by
  have hne {d : Char} (hd : isNameChar d = false) : c ≠ d := ne_of_isNameChar hc hd
  have hcomment : c ≠ ';' := hne (by decide)
  have hquote : c ≠ '\'' := hne (by decide)
  have hdouble : c ≠ '"' := hne (by decide)
  have hcomma : c ≠ ',' := hne (by decide)
  have hspace : c ≠ ' ' := hne (by decide)
  have htab : c ≠ '\t' := hne (by decide)
  simp [lexLine, *]

/-- A name is read to its end. -/
theorem lexLine_name {name : List Char} (hname : name.all isNameChar = true) (acc cs : List Char) :
    lexLine none acc (name ++ cs) = lexLine none (name.reverse ++ acc) cs := by
  induction name generalizing acc with
  | nil => rfl
  | cons c name ih =>
    obtain ⟨hc, hrest⟩ : isNameChar c = true ∧ name.all isNameChar = true := by simpa using hname
    rw [List.cons_append, lexLine_nameChar hc, ih hrest]
    simp

theorem flushWord_reverse {name : List Char} (h : name ≠ []) : flushWord name.reverse = [.word name] := by
  simp [flushWord, h]

/-- A line that is a name. -/
theorem lexLine_name_end {name : List Char} (hname : name.all isNameChar = true) (h : name ≠ []) :
    lexLine none [] name = [.word name] := by
  have hread := lexLine_name hname [] []
  rw [List.append_nil, List.append_nil] at hread
  rw [hread, lexLine, flushWord_reverse h]

/-- A space ends a name (log entry 21). -/
theorem lexLine_name_space {name : List Char} (hname : name.all isNameChar = true) (h : name ≠ []) (cs : List Char) :
    lexLine none [] (name ++ ' ' :: cs) = .word name :: lexLine none [] cs := by
  rw [lexLine_name hname, List.append_nil, lexLine, flushWord_reverse h, List.singleton_append]

/-- A text literal holds every character up to its closing quote (log entry 21). -/
theorem lexLine_literal {text : List Char} (h : ∀ c ∈ text, c ≠ '"') (lit acc : List Char) :
    lexLine (some lit) acc (text ++ ['"']) = [.text (lit.reverse ++ text)] := by
  induction text generalizing lit acc with
  | nil => simp [lexLine, flushWord]
  | cons c text ih =>
    obtain ⟨hc, hrest⟩ := List.forall_mem_cons.1 h
    simp [lexLine, ih hrest]

/-- The line `PRINT "text"` in pieces. -/
theorem lexLine_print {text : List Char} (h : ∀ c ∈ text, c ≠ '"') :
    lexLine none [] ("PRINT \"".toList ++ text ++ ['"']) = [.word "PRINT".toList, .text text] := by
  have hsplit : "PRINT \"".toList ++ text ++ ['"'] = "PRINT".toList ++ ' ' :: '"' :: (text ++ ['"']) := rfl
  rw [hsplit, lexLine_name_space (by decide) (by decide), lexLine, lexLine_literal h]
  rfl

/-- The bytes of ASCII text are its codes (R112). -/
theorem textBytes_ascii {text : List Char} (h : ∀ c ∈ text, c.toNat < 128) :
    textBytes text = some (text.map (fun c => BitVec.ofNat 8 c.toNat)) := by
  induction text with
  | nil => rfl
  | cons c text ih =>
    obtain ⟨hc, hrest⟩ := List.forall_mem_cons.1 h
    have hbyte : toByte c.toNat = some (BitVec.ofNat 8 c.toNat) := if_pos (by omega)
    simp [textBytes, hbyte, ih hrest]

theorem assemble_line {line : List Char} {is : List Instr} (h : parseLine line = .ok is) :
    assemble [line] = .ok (is.map encode) := by
  simp [assemble, parseProgram, h]

/-- Settles O56: the traces of the program that `PRINT` expands to, and the pieces of its line. -/
theorem printWritesEachByteInOrder : Obligations.PrintWritesEachByteInOrder := by
  refine ⟨fun text s hs => ?_, fun text htext => ?_⟩
  · obtain ⟨hseq, hout, hregs⟩ := issueAll_idle (expandPrint text) hs
    rw [traceOfAll_expandPrint] at hout
    rw [regsAfterAll_expandPrint] at hregs
    exact ⟨hout, hregs, hseq⟩
  · have hbytes := textBytes_ascii (fun c hc => (htext c hc).1)
    have hline : parseLine ("PRINT \"".toList ++ text ++ ['"']) =
        .ok (expandPrint (text.map (fun c => BitVec.ofNat 8 c.toNat))) := by
      simp only [parseLine, lexLine_print (fun c hc => (htext c hc).2), if_true, hbytes]
    rw [assemble_line hline]
    simp [expandPrint]

/-! ### The names of the commands (R104, R110) -/

/-- A name that the text form reads as the command of an opcode. -/
structure NamesOp (name : List Char) (op : Byte) : Prop where
  chars    : name.all isNameChar = true
  nonempty : name ≠ []
  notPrint : name ≠ "PRINT".toList
  opcode   : opOfName name = some op

/-- Both names of each row of R104 are read as the command of the row's opcode. -/
theorem namesOp_nameTable {e : Byte × String × String} (he : e ∈ nameTable) {name : String}
    (hname : name ∈ [e.2.1, e.2.2]) : NamesOp name.toList e.1 := by
  have htable : ∀ e ∈ nameTable, ∀ name ∈ [e.2.1, e.2.2],
      name.toList.all isNameChar = true ∧ name.toList ≠ [] ∧ name.toList ≠ "PRINT".toList ∧
        opOfName name.toList = some e.1 := by decide
  obtain ⟨hchars, hnonempty, hprint, hop⟩ := htable e he name hname
  exact ⟨hchars, hnonempty, hprint, hop⟩

section
variable {name : List Char} {op : Byte} (h : NamesOp name op)
include h

/-- A line that begins with a name is parsed by the name's opcode alone. -/
theorem parseLine_eq_of_namesOp {name' : List Char} (h' : NamesOp name' op) (operands : List Char) :
    parseLine (name ++ ' ' :: operands) = parseLine (name' ++ ' ' :: operands) := by
  simp only [parseLine, lexLine_name_space h.chars h.nonempty, lexLine_name_space h'.chars h'.nonempty, h.notPrint,
    h'.notPrint, h.opcode, h'.opcode, if_false]

/-- A name alone is the command that its opcode has without operands. -/
theorem parseLine_name {i : Instr} (hi : commandOf op [] = some i) : parseLine name = .ok [i] := by
  simp only [parseLine, lexLine_name_end h.chars h.nonempty, h.notPrint, h.opcode, operandsOf, Option.bind_some, hi,
    if_false]

end

/-- The commands without operands are the opcode of their row in its place (R104, R109). -/
theorem commandOf_nil {e : Byte × String × String} (he : e ∈ nameTable) (h1 : e.1 ≠ 0x10) (h2 : e.1 ≠ 0x11)
    (h3 : e.1 ≠ 0x12) : ∃ i, commandOf e.1 [] = some i ∧ encode i = e.1.setWidth 88 <<< 80 := by
  have htable : ∀ e ∈ nameTable, e.1 ≠ 0x10 → e.1 ≠ 0x11 → e.1 ≠ 0x12 →
      (commandOf e.1 []).map encode = some (e.1.setWidth 88 <<< 80) := by decide
  simpa using htable e he h1 h2 h3

/-- Settles O57: both names of a row are read as the row's opcode; the lines of R109 are computed. -/
theorem secondNamesAssembleAlike : Obligations.SecondNamesAssembleAlike := by
  refine ⟨fun e he => ⟨fun operands => ?_, fun h1 h2 h3 name hname => ?_⟩, by decide, by decide, by decide, by decide,
    by decide⟩
  · have hfirst : NamesOp e.2.1.toList e.1 := namesOp_nameTable he (by simp)
    have hsecond : NamesOp e.2.2.toList e.1 := namesOp_nameTable he (by simp)
    simp only [assemble, parseProgram, parseLine_eq_of_namesOp hsecond hfirst operands]
  · obtain ⟨i, hi, hword⟩ := commandOf_nil he h1 h2 h3
    rw [assemble_line (parseLine_name (namesOp_nameTable he hname) hi), List.map_singleton, hword]

end Sys2Proof.Machine

/-! # The family of spec/40_frame_encoder.md: the nibble frames of a byte -/

namespace Sys2Proof.Machine

/-- The recombination of R125 joins the upper nibbles of any two bytes. -/
theorem high_or_shift_eq_hiNibbles (y z : Byte) :
    ((y &&& 0xF0) ||| (z >>> 4) : Byte) = hiNibble y ++ hiNibble z := by
  unfold hiNibble
  apply BitVec.eq_of_getLsbD_eq
  intro i hi
  rw [BitVec.getLsbD_append]
  interval_cases i <;> simp

/-- Settles O8: the upper nibble of a frame is the nibble it carries, and the two nibbles of a byte join to it. -/
theorem nibbleFramesRecombine : Obligations.NibbleFramesRecombine := fun l bl b => by
  rw [high_or_shift_eq_hiNibbles, frameHigh, frameLow, hiNibble_frame, hiNibble_frame, hiNibble_append_loNibble]

end Sys2Proof.Machine

/-! # The family of spec/42_init.md: the handshake of `INIT` and the state it leaves -/

namespace Sys2Proof.Machine

/-! ### The last byte of an operation (R44, R136) -/

/-- What ends in a full transmission leaves that transmission's low nibble on the lines, enable low. -/
theorem getLast?_txEvents_append_instrTrace (es : List Event) (c : Cfg) (rs bl : Line) (b : Byte) (t : Units) :
    (txEvents (es ++ instrTrace c rs bl b t)).getLast? = some (c.addr, lastByte rs bl b) := by
  rw [txEvents_append, txEvents_instrTrace, List.getLast?_append]
  rfl

/-- The state in which a command's operation ends, its last byte `v` known: the expander holds `v`. -/
theorem finish_exec_of_lastByte (i : Instr) {s : State} (hs : s.seq = []) {a : BusAddr} {v : Byte}
    (hlast : (txEvents (traceOf s.cfg i s.regs)).getLast? = some (a, v)) :
    (s.load (opOf i s.toBuild)).finish = { s with
      bl := (regsAfter i s.regs).bl, entry := (regsAfter i s.regs).entry, disp := (regsAfter i s.regs).disp
      tmr := 0, lat := latLeft i s
      out := s.out ++ traceOf s.cfg i s.regs, bus := s.bus.write s.cfg.addr.toNat v } := by
  rw [finish_exec, hlast, hs]

/-! ### `INIT` (R150 to R152) -/

/-- Settles O9: the operation's end is `finish_exec`, and the last of the eight phases of R151 is the full transmission of
the entry-mode instruction. -/
theorem initRunsTheHandshake : Obligations.InitRunsTheHandshake := by
  intro s hs
  have hlast : (txEvents (traceOf s.cfg .init s.regs)).getLast? =
      some (s.cfg.addr, lastByte 0 s.bl (0x04 ||| (s.entry ||| 0b10).setWidth 8)) :=
    getLast?_txEvents_append_instrTrace _ s.cfg 0 s.bl _ s.cfg.tSettle
  exact ⟨_, exec_idle .init hs, finish_exec_of_lastByte .init hs hlast⟩

/-- Settles O44: what is pending is the table's trace (R151), whose four half transmissions latch one nibble each and whose
four full ones join to their bytes. -/
theorem initLatchesTheHandshakeFirst : Obligations.InitLatchesTheHandshakeFirst := by
  intro s hs
  refine ⟨_, exec_idle .init hs, ?_⟩
  rw [pending_load, traceOf_init]
  exact ⟨by rw [latched_initTrace]; rfl, joinNibbles_initTrace _ _ _ _⟩

end Sys2Proof.Machine

/-! # The family of spec/43_clear_home.md: the one instruction of `CLEAR` and `HOME`, and its long settle wait -/

namespace Sys2Proof.Machine

/-- Settles O10: the whole trace of either command is one full transmission, so its low nibble is the last byte. -/
theorem clearAndHomeSendOneInstruction : Obligations.ClearAndHomeSendOneInstruction := by
  intro s hs
  have hlast (b : Byte) :
      (txEvents (commandTrace s.cfg s.bl b s.cfg.tLong)).getLast? = some (s.cfg.addr, lastByte 0 s.bl b) :=
    getLast?_txEvents_append_instrTrace [] s.cfg 0 s.bl b s.cfg.tLong
  exact ⟨⟨_, exec_idle .clear hs, finish_exec_of_lastByte .clear hs (hlast 0x01)⟩,
    ⟨_, exec_idle .home hs, finish_exec_of_lastByte .home hs (hlast 0x02)⟩⟩

/-! ### The wait that ends a command (R17, R136, R162) -/

/-- What ends in a full transmission ends in a wait exactly when its settle time is not 0, and then in that wait. -/
theorem getLast?_append_instrTrace_eq_wait_iff {es : List Event} {c : Cfg} {rs bl : Line} {b : Byte} {t n : Units} :
    (es ++ instrTrace c rs bl b t).getLast? = some (.wait n) ↔ t ≠ 0 ∧ t = n := by
  rw [instrTrace, ← List.append_assoc, ← List.append_assoc, List.getLast?_append, List.getLast?_concat, waitTrace]
  split
  next ht => simp [ht]
  next ht => simp [show t ≠ 0#16 from ht]

/-- The wait that ends a trace is the last of its waits. -/
theorem getLast?_waitEvents {es : List Event} {n : Units} (h : es.getLast? = some (.wait n)) :
    (waitEvents es).getLast? = some n := by
  obtain ⟨es', rfl⟩ := List.getLast?_eq_some_iff.1 h
  simp [waitEvents]

/-- Every command but `CLEAR` and `HOME` that ends in a wait ends in one of T_SETTLE or T_WRITE (R104). -/
theorem eq_tSettle_or_tWrite_of_getLast?_traceOf {c : Cfg} {i : Instr} {r : Regs} {n : Units} (hclear : i ≠ .clear)
    (hhome : i ≠ .home) (h : (traceOf c i r).getLast? = some (.wait n)) : n = c.tSettle ∨ n = c.tWrite := by
  have hsettle (es : List Event) (b : Byte)
      (h : (es ++ commandTrace c r.bl b c.tSettle).getLast? = some (.wait n)) : n = c.tSettle ∨ n = c.tWrite :=
    .inl (getLast?_append_instrTrace_eq_wait_iff.1 h).2.symm
  cases i with
  | clear => exact absurd rfl hclear
  | home => exact absurd rfl hhome
  | init | defineGlyph a g => exact hsettle _ _ h
  | writeChar a => exact .inr ((getLast?_append_instrTrace_eq_wait_iff (es := [])).1 h).2.symm
  | backlightOn | backlightOff => simp [traceOf] at h
  | _ => exact hsettle [] _ h

/-- R8, as inequalities. -/
theorem longSettles_iff {c : Cfg} : c.longSettles = true ↔ c.tSettle < c.tLong ∧ c.tWrite < c.tLong := by
  simp [Cfg.longSettles]

/-- Settles O38: T_LONG is above T_SETTLE, so not 0, and `CLEAR` and `HOME` end in its wait; the wait that ends another
command is T_SETTLE or T_WRITE, and R8 puts both below T_LONG. -/
theorem clearAndHomeSettleLongest : Obligations.ClearAndHomeSettleLongest := by
  intro s hs hlong
  obtain ⟨hsettle, hwrite⟩ := longSettles_iff.1 hlong
  refine ⟨fun i hi => ?_, fun i t n ht hclear hhome hlast => ?_⟩
  · have hpos : s.cfg.tLong ≠ 0 := fun h0 => BitVec.not_lt_zero (h0 ▸ hsettle)
    have hcommand (b : Byte) : (commandTrace s.cfg s.bl b s.cfg.tLong).getLast? = some (.wait s.cfg.tLong) :=
      (getLast?_append_instrTrace_eq_wait_iff (es := [])).2 ⟨hpos, rfl⟩
    have hlast : (traceOf s.cfg i s.regs).getLast? = some (.wait s.cfg.tLong) := by
      rcases hi with rfl | rfl
      · exact hcommand 0x01
      · exact hcommand 0x02
    refine ⟨_, exec_idle i hs, ?_⟩
    rw [pending_load]
    exact ⟨hlast, getLast?_waitEvents hlast⟩
  · rw [exec_idle i hs] at ht
    cases ht
    rw [pending_load] at hlast
    rcases eq_tSettle_or_tWrite_of_getLast?_traceOf hclear hhome hlast with rfl | rfl
    · exact hsettle
    · exact hwrite

end Sys2Proof.Machine

/-! # The family of spec/44_entry_mode.md: one bit of ENTRY set or cleared, and the whole of ENTRY sent -/

namespace Sys2Proof.Machine

/-- The four entry-mode commands (R170 to R173). -/
abbrev EntryModeCommand (i : Instr) : Prop :=
  i = .leftToRight ∨ i = .rightToLeft ∨ i = .autoscrollOn ∨ i = .autoscrollOff

/-! ### What an entry-mode command sends and leaves (R174) -/

section
variable {i : Instr} (hi : EntryModeCommand i)
include hi

/-- The full transmission of `0x04` ORed with the new ENTRY. -/
theorem traceOf_entryMode (c : Cfg) (r : Regs) :
    traceOf c i r = commandTrace c r.bl (0x04 ||| (regsAfter i r).entry.setWidth 8) c.tSettle := by
  rcases hi with rfl | rfl | rfl | rfl <;> rfl

theorem latLeft_entryMode (s : State) :
    latLeft i s = ⟨0, 0, 0, 0x04 ||| (regsAfter i s.regs).entry.setWidth 8⟩ := by
  rcases hi with rfl | rfl | rfl | rfl <;> rfl

/-- Neither BL nor DISP is written. -/
theorem regsAfter_entryMode (r : Regs) : regsAfter i r = { r with entry := (regsAfter i r).entry } := by
  rcases hi with rfl | rfl | rfl | rfl <;> rfl

theorem finish_entryMode {s : State} (hs : s.seq = []) {e : BitVec 2} (he : (regsAfter i s.regs).entry = e) :
    (s.load (opOf i s.toBuild)).finish = { s with
      entry := e, tmr := 0
      lat := ⟨0, 0, 0, 0x04 ||| e.setWidth 8⟩
      out := s.out ++ commandTrace s.cfg s.bl (0x04 ||| e.setWidth 8) s.cfg.tSettle
      bus := s.bus.write s.cfg.addr.toNat (lastByte 0 s.bl (0x04 ||| e.setWidth 8)) } := by
  subst he
  have htrace := traceOf_entryMode hi s.cfg s.regs
  have hlast : (txEvents (traceOf s.cfg i s.regs)).getLast? =
      some (s.cfg.addr, lastByte 0 s.bl (0x04 ||| (regsAfter i s.regs).entry.setWidth 8)) := by
    rw [htrace]
    exact getLast?_txEvents_append_instrTrace [] s.cfg 0 s.bl _ s.cfg.tSettle
  rw [finish_exec_of_lastByte i hs hlast, htrace, latLeft_entryMode hi, regsAfter_entryMode hi]
  rfl

end

/-- Settles O11: the value that each row of the statement names is the one that `regsAfter` gives, and
`finish_entryMode` gives the state in which the operation ends. -/
theorem entryModeCommandsUpdateAndResend : Obligations.EntryModeCommandsUpdateAndResend := by
  intro s hs ie hie
  have hrow : EntryModeCommand ie.1 ∧ (regsAfter ie.1 s.regs).entry = ie.2 := by
    simp only [List.mem_cons, List.not_mem_nil, or_false] at hie
    rcases hie with rfl | rfl | rfl | rfl <;> exact ⟨by simp [EntryModeCommand], rfl⟩
  obtain ⟨hi, he⟩ := hrow
  exact ⟨_, exec_idle ie.1 hs, finish_entryMode hi hs he⟩

/-! ### The bits of ENTRY over a sequence of commands (R175) -/

/-- What one command does to a bit decides what a program does to it: if every command of the program that satisfies
`names` leaves the bit at `value`, and every other keeps it, then the last command that satisfies `names` decides. -/
theorem regsAfterAll_bit {bit : Regs → Bool} {names value : Instr → Bool} {is : List Instr}
    (h : ∀ i ∈ is, ∀ r, bit (regsAfter i r) = if names i then value i else bit r) (r : Regs) :
    bit (regsAfterAll is r) = ((is.filter names).getLast?.map value).getD (bit r) := by
  induction is generalizing r with
  | nil => rfl
  | cons i is ih =>
    rw [regsAfterAll, ih (fun j hj => h j (List.mem_cons_of_mem i hj)), h i List.mem_cons_self]
    by_cases hn : names i
    · rw [List.filter_cons_of_pos hn, if_pos hn, List.getLast?_cons]
      cases (is.filter names).getLast? <;> rfl
    · rw [List.filter_cons_of_neg hn, if_neg hn]

/-- DIR is set by `LEFT_TO_RIGHT`, cleared by `RIGHT_TO_LEFT`, and kept by the autoscroll commands. -/
theorem regsAfter_dir {i : Instr} (hi : EntryModeCommand i) (r : Regs) :
    (regsAfter i r).entry.getLsbD 1 =
      if i == .leftToRight || i == .rightToLeft then i == .leftToRight else r.entry.getLsbD 1 := by
  rcases hi with rfl | rfl | rfl | rfl <;> simp [regsAfter]

/-- AUTO is set by `AUTOSCROLL_ON`, cleared by `AUTOSCROLL_OFF`, and kept by the direction commands. -/
theorem regsAfter_auto {i : Instr} (hi : EntryModeCommand i) (r : Regs) :
    (regsAfter i r).entry.getLsbD 0 =
      if i == .autoscrollOn || i == .autoscrollOff then i == .autoscrollOn else r.entry.getLsbD 0 := by
  rcases hi with rfl | rfl | rfl | rfl <;> simp [regsAfter]

theorem regsAfter_entry_of_not_entryMode {i : Instr} (hi : ¬ EntryModeCommand i) (r : Regs) :
    (regsAfter i r).entry = if i = .init then r.entry ||| 0b10 else r.entry := by
  split
  next h => rw [h]; rfl
  next h => exact (regsAfter_entry_cases i r).resolve_right (by tauto)

theorem issue_entry (i : Instr) {s : State} (hs : s.seq = []) : (s.issue i).entry = (regsAfter i s.regs).entry :=
  congrArg Regs.entry (issue_regs i hs)

/-- Settles O34: a program leaves the registers that `regsAfterAll` gives, in which the last command that names a bit
decides it; what one command sends and writes is `traceOf` and `regsAfter`. -/
theorem entryModeIsCumulative : Obligations.EntryModeIsCumulative := by
  refine ⟨fun is s hs his => ?_, fun i s hs hi => ?_, fun i s hs h1 h2 h3 h4 => ?_⟩
  · obtain ⟨-, -, hregs⟩ := issueAll_idle is hs
    have hentry : (s.issueAll is).entry = (regsAfterAll is s.regs).entry := congrArg Regs.entry hregs
    rw [hentry]
    exact ⟨regsAfterAll_bit (bit := fun r => r.entry.getLsbD 1) (fun i hi => regsAfter_dir (his i hi)) s.regs,
      regsAfterAll_bit (bit := fun r => r.entry.getLsbD 0) (fun i hi => regsAfter_auto (his i hi)) s.regs⟩
  · rw [issue_out i hs, issue_entry i hs, traceOf_entryMode hi]
    rfl
  · rw [issue_entry i hs]
    exact regsAfter_entry_of_not_entryMode (by simp [h1, h2, h3, h4]) s.regs

end Sys2Proof.Machine

/-! # The family of spec/45_display_control.md: one bit of DISP set or cleared, and the whole of DISP sent -/

namespace Sys2Proof.Machine

/-- The six display-control commands (R180 to R185). -/
abbrev DisplayControlCommand (i : Instr) : Prop :=
  i = .displayOn ∨ i = .displayOff ∨ i = .cursorOn ∨ i = .cursorOff ∨ i = .blinkOn ∨ i = .blinkOff

/-! ### A command whose whole trace is one instruction (R44, R136) -/

/-- It ends with the low nibble of that instruction on the lines. -/
theorem finish_exec_of_commandTrace (i : Instr) {s : State} (hs : s.seq = []) {b : Byte} {t : Units}
    (htrace : traceOf s.cfg i s.regs = commandTrace s.cfg s.bl b t) :
    (s.load (opOf i s.toBuild)).finish = { s with
      bl := (regsAfter i s.regs).bl, entry := (regsAfter i s.regs).entry, disp := (regsAfter i s.regs).disp
      tmr := 0, lat := latLeft i s
      out := s.out ++ commandTrace s.cfg s.bl b t
      bus := s.bus.write s.cfg.addr.toNat (lastByte 0 s.bl b) } := by
  have hlast : (txEvents (traceOf s.cfg i s.regs)).getLast? = some (s.cfg.addr, lastByte 0 s.bl b) := by
    rw [htrace]
    exact getLast?_txEvents_append_instrTrace [] s.cfg 0 s.bl b t
  rw [finish_exec_of_lastByte i hs hlast, htrace]

/-! ### What a display-control command sends and leaves (R186) -/

section
variable {i : Instr} (hi : DisplayControlCommand i)
include hi

/-- The full transmission of `0x08` ORed with the new DISP. -/
theorem traceOf_displayControl (c : Cfg) (r : Regs) :
    traceOf c i r = commandTrace c r.bl (0x08 ||| (regsAfter i r).disp.setWidth 8) c.tSettle := by
  rcases hi with rfl | rfl | rfl | rfl | rfl | rfl <;> rfl

theorem latLeft_displayControl (s : State) :
    latLeft i s = ⟨0, 0, 0, 0x08 ||| (regsAfter i s.regs).disp.setWidth 8⟩ := by
  rcases hi with rfl | rfl | rfl | rfl | rfl | rfl <;> rfl

/-- Neither BL nor ENTRY is written. -/
theorem regsAfter_displayControl (r : Regs) : regsAfter i r = { r with disp := (regsAfter i r).disp } := by
  rcases hi with rfl | rfl | rfl | rfl | rfl | rfl <;> rfl

theorem finish_displayControl {s : State} (hs : s.seq = []) {d : BitVec 3} (hd : (regsAfter i s.regs).disp = d) :
    (s.load (opOf i s.toBuild)).finish = { s with
      disp := d, tmr := 0
      lat := ⟨0, 0, 0, 0x08 ||| d.setWidth 8⟩
      out := s.out ++ commandTrace s.cfg s.bl (0x08 ||| d.setWidth 8) s.cfg.tSettle
      bus := s.bus.write s.cfg.addr.toNat (lastByte 0 s.bl (0x08 ||| d.setWidth 8)) } := by
  subst hd
  rw [finish_exec_of_commandTrace i hs (traceOf_displayControl hi s.cfg s.regs), latLeft_displayControl hi,
    regsAfter_displayControl hi]
  rfl

end

/-- Settles O12: the value that each row of the statement names is the one that `regsAfter` gives, and
`finish_displayControl` gives the state in which the operation ends. -/
theorem displayControlCommandsUpdateAndResend : Obligations.DisplayControlCommandsUpdateAndResend := by
  intro s hs ie hie
  have hrow : DisplayControlCommand ie.1 ∧ (regsAfter ie.1 s.regs).disp = ie.2 := by
    simp only [List.mem_cons, List.not_mem_nil, or_false] at hie
    rcases hie with rfl | rfl | rfl | rfl | rfl | rfl <;> exact ⟨by simp [DisplayControlCommand], rfl⟩
  obtain ⟨hi, hd⟩ := hrow
  exact ⟨_, exec_idle ie.1 hs, finish_displayControl hi hs hd⟩

/-! ### The bits of DISP over a sequence of commands (R187) -/

/-- The mask of bit `k` sets that bit and changes no other. -/
theorem getLsbD_or_of_eq_twoPow {w k : Nat} {m : BitVec w} (hm : m = BitVec.twoPow w k) (hk : k < w) (d : BitVec w)
    (j : Nat) : (d ||| m).getLsbD j = if j = k then true else d.getLsbD j := by
  rw [hm, BitVec.getLsbD_or, BitVec.getLsbD_twoPow]
  split
  next h => simp [h, hk]
  next h => simp [Ne.symm h]

/-- The mask of every bit but `k` clears that bit and changes no other. -/
theorem getLsbD_and_of_eq_not_twoPow {w k : Nat} {m : BitVec w} (hm : m = ~~~BitVec.twoPow w k) (d : BitVec w)
    {j : Nat} (hj : j < w) : (d &&& m).getLsbD j = if j = k then false else d.getLsbD j := by
  rw [hm, BitVec.getLsbD_and, BitVec.getLsbD_not, BitVec.getLsbD_twoPow]
  split
  next h => simp [← h, hj]
  next h => simp [hj, Ne.symm h]

/-- Each command with the bit it names and the value it gives that bit (R180 to R185). -/
def dispBitTable : List (Instr × Nat × Bool) :=
  [(.displayOn, 2, true), (.displayOff, 2, false), (.cursorOn, 1, true), (.cursorOff, 1, false),
   (.blinkOn, 0, true), (.blinkOff, 0, false)]

theorem displayControlCommand_of_mem {ikv : Instr × Nat × Bool} (h : ikv ∈ dispBitTable) :
    DisplayControlCommand ikv.1 := by
  simp only [dispBitTable, List.mem_cons, List.not_mem_nil, or_false] at h
  rcases h with rfl | rfl | rfl | rfl | rfl | rfl <;> simp [DisplayControlCommand]

theorem regsAfter_disp_bit {ikv : Instr × Nat × Bool} (h : ikv ∈ dispBitTable) (r : Regs) {j : Nat} (hj : j < 3) :
    (regsAfter ikv.1 r).disp.getLsbD j = if j = ikv.2.1 then ikv.2.2 else r.disp.getLsbD j := by
  simp only [dispBitTable, List.mem_cons, List.not_mem_nil, or_false] at h
  rcases h with rfl | rfl | rfl | rfl | rfl | rfl
  · exact getLsbD_or_of_eq_twoPow (by decide) (by decide) r.disp j
  · exact getLsbD_and_of_eq_not_twoPow (by decide) r.disp hj
  · exact getLsbD_or_of_eq_twoPow (by decide) (by decide) r.disp j
  · exact getLsbD_and_of_eq_not_twoPow (by decide) r.disp hj
  · exact getLsbD_or_of_eq_twoPow (by decide) (by decide) r.disp j
  · exact getLsbD_and_of_eq_not_twoPow (by decide) r.disp hj

theorem regsAfter_disp_of_not_displayControl {i : Instr} (hi : ¬ DisplayControlCommand i) (r : Regs) :
    (regsAfter i r).disp = if i = .init then r.disp ||| 0b100 else r.disp := by
  split
  next h => rw [h]; rfl
  next h => exact (regsAfter_disp_cases i r).resolve_right (by tauto)

theorem issue_disp (i : Instr) {s : State} (hs : s.seq = []) : (s.issue i).disp = (regsAfter i s.regs).disp :=
  congrArg Regs.disp (issue_regs i hs)

/-- Settles O35: the worked sequence is the run of `traceOfAll` from `0b100`; what one command sends and writes is
`traceOf` and `regsAfter`, in which it changes the bit of its row in `dispBitTable`. -/
theorem displayControlIsCumulative : Obligations.DisplayControlIsCumulative := by
  refine ⟨fun s hs hd => ?_, fun s hs ikv h => ⟨?_, fun j hj => ?_⟩, fun i s hs h1 h2 h3 h4 h5 h6 => ?_⟩
  · obtain ⟨-, hout, -⟩ := issueAll_idle [.blinkOn, .cursorOn, .cursorOff, .blinkOff] hs
    have hregs : s.regs = ⟨s.bl, s.entry, 0b100⟩ := by rw [State.regs, hd]
    rw [hout, hregs]
    simp [traceOfAll, traceOf, regsAfter]
  · rw [issue_out ikv.1 hs, issue_disp ikv.1 hs, traceOf_displayControl (displayControlCommand_of_mem h)]
    rfl
  · rw [issue_disp ikv.1 hs]
    exact regsAfter_disp_bit h s.regs hj
  · rw [issue_disp i hs]
    exact regsAfter_disp_of_not_displayControl (by simp [h1, h2, h3, h4, h5, h6]) s.regs

end Sys2Proof.Machine

/-! # The family of spec/46_shift.md: the fixed instruction of each display shift -/

namespace Sys2Proof.Machine

/-- Settles O13: the whole trace of either command is the one instruction of its row, and `regsAfter` changes no flag. -/
theorem scrollCommandsSendFixedInstructions : Obligations.ScrollCommandsSendFixedInstructions := by
  intro s hs ib hib
  simp only [List.mem_cons, List.not_mem_nil, or_false] at hib
  rcases hib with rfl | rfl
  · exact ⟨_, exec_idle .scrollLeft hs, finish_exec_of_commandTrace .scrollLeft hs rfl⟩
  · exact ⟨_, exec_idle .scrollRight hs, finish_exec_of_commandTrace .scrollRight hs rfl⟩

end Sys2Proof.Machine

/-! # The family of spec/47_glyph_cursor_char.md: the cursor's position, one character, and the glyph of a slot -/

namespace Sys2Proof.Machine

/-! ### What each command sends and leaves (R200 to R202) -/

/-- Settles O14: the whole trace is the one instruction of the clamped position, and `regsAfter` changes no flag. -/
theorem setCursorSendsTheClampedAddress : Obligations.SetCursorSendsTheClampedAddress := fun _ a b hs =>
  ⟨_, exec_idle (.setCursor a b) hs, finish_exec_of_commandTrace (.setCursor a b) hs rfl⟩

/-- Settles O15: the whole trace is one full transmission with RS = 1, so its low nibble is the last byte. -/
theorem writeCharSendsTheByte : Obligations.WriteCharSendsTheByte := by
  intro s a hs
  have hlast : (txEvents (traceOf s.cfg (.writeChar a) s.regs)).getLast? = some (s.cfg.addr, lastByte 1 s.bl a) :=
    getLast?_txEvents_append_instrTrace [] s.cfg 1 s.bl a s.cfg.tWrite
  exact ⟨_, exec_idle (.writeChar a) hs, finish_exec_of_lastByte (.writeChar a) hs hlast⟩

/-- The engine's slot is the operand modulo 8 (R200). -/
theorem slotOf_toNat (a : Byte) : (slotOf a).toNat = a.toNat % 8 := by
  simp [slotOf, BitVec.extractLsb'_toNat]

/-- Of its first operand `DEFINE_GLYPH` uses the slot only. -/
theorem exec_defineGlyph_congr {a a' : Byte} (h : slotOf a = slotOf a') (g : Payload) (s : State) :
    exec (.defineGlyph a g) s = exec (.defineGlyph a' g) s := by
  have hop : opDefineGlyph a g = opDefineGlyph a' g := by
    funext p
    rw [opDefineGlyph, opDefineGlyph, h]
  exact congrArg (accept · s) hop

/-- Settles O16: the last of the ten instructions is `0x80`, so its low nibble is the last byte; the slot is all that
the operation uses of `a`, and it is `a` modulo 8. -/
theorem defineGlyphSendsTenInstructions : Obligations.DefineGlyphSendsTenInstructions := by
  refine ⟨fun s a g hs => ?_, fun s a a' g h => exec_defineGlyph_congr (BitVec.eq_of_toNat_eq ?_) g s⟩
  · have hlast : (txEvents (traceOf s.cfg (.defineGlyph a g) s.regs)).getLast? =
        some (s.cfg.addr, lastByte 0 s.bl 0x80) :=
      getLast?_txEvents_append_instrTrace _ s.cfg 0 s.bl 0x80 s.cfg.tSettle
    exact ⟨_, exec_idle (.defineGlyph a g) hs, finish_exec_of_lastByte (.defineGlyph a g) hs hlast⟩
  · rw [slotOf_toNat, slotOf_toNat, h]

/-! ### The cursor address (R203) -/

theorem clampRow_eq_ofNat (c : Cfg) (row : Byte) :
    clampRow c row = BitVec.ofNat 2 (min row.toNat (rowMax c).toNat) := by
  rw [← clampRow_toNat, BitVec.ofNat_toNat, BitVec.setWidth_eq]

/-- A geometry is well formed when every row that the configuration has ends within the DDRAM addresses. -/
theorem geometryWf_iff {c : Cfg} :
    geometryWf c = true ↔ ∀ r ≤ rowMax c, (rowOff r).toNat + (colMax c).toNat ≤ 127 := by
  simp only [geometryWf, List.all_eq_true, List.mem_range, decide_eq_true_eq]
  refine ⟨fun h r hr => ?_, fun h n hn => h _ ?_⟩
  · simpa using h r.toNat (Nat.lt_succ_of_le hr)
  · have := (rowMax c).isLt
    rw [BitVec.le_def, BitVec.toNat_ofNat]
    omega

/-- Of the rows up to `m` the one with the greatest offset: with 4 rows row 3; with 2 or 3 row 1, whose
offset is above that of row 2 (R31). -/
def furthestRow (m : BitVec 2) : BitVec 2 := if m = 3 then 3 else if m = 0 then 0 else 1

theorem furthestRow_le (m : BitVec 2) : furthestRow m ≤ m := by decide +revert

theorem rowOff_le_rowOff_furthestRow {r m : BitVec 2} (h : r ≤ m) :
    (rowOff r).toNat ≤ (rowOff (furthestRow m)).toNat := by decide +revert

/-- What the offset of the furthest row leaves of the 128 DDRAM addresses. -/
theorem rowOff_furthestRow (m : BitVec 2) :
    (rowOff (furthestRow m)).toNat + (if m = 3 then 43 else if m = 0 then 127 else 63) = 127 := by decide +revert

/-- Every row ends within the DDRAM addresses exactly when the furthest does. -/
theorem forall_rowOff_add_le_iff (m : BitVec 2) (n : Nat) :
    (∀ r ≤ m, (rowOff r).toNat + n ≤ 127) ↔ n ≤ if m = 3 then 43 else if m = 0 then 127 else 63 := by
  have hbound := rowOff_furthestRow m
  refine ⟨fun h => ?_, fun h r hr => ?_⟩
  · have hend := h (furthestRow m) (furthestRow_le m)
    omega
  · have hoff := rowOff_le_rowOff_furthestRow hr
    omega

/-- The address of a row's position is that row's offset plus a column of the row, with no reduction modulo 128. -/
theorem cursorAddr_toNat_of_geometryWf {c : Cfg} (h : geometryWf c = true) (col row : Byte) :
    (cursorAddr c col row).toNat = (rowOff (clampRow c row)).toNat + min col.toNat (colMax c).toNat := by
  have hrow : clampRow c row ≤ rowMax c := by
    rw [BitVec.le_def, clampRow_toNat]
    exact Nat.min_le_right _ _
  have hend := geometryWf_iff.1 h _ hrow
  rw [cursorAddr_toNat, clampCol_toNat]
  omega

/-- Settles O40: the sum is the law of `cursorAddr`, the bound that of the furthest row, and in a well-formed
geometry the address is the row's offset plus a column that is at most COLMAX. -/
theorem cursorAddressStaysInItsRow : Obligations.CursorAddressStaysInItsRow := by
  intro c col row
  rw [← clampRow_eq_ofNat]
  refine ⟨?_, ?_, fun h => ?_⟩
  · rw [cursorAddr_toNat, clampCol_toNat]
  · rw [geometryWf_iff, forall_rowOff_add_le_iff]
  · rw [cursorAddr_toNat_of_geometryWf h]
    omega

end Sys2Proof.Machine

/-! # The family of spec/48_backlight.md, spec/60_exceptions.md and spec/70_reset_and_hazards.md: the backlight's one
byte, commands and resets against a running operation, counts of events, the order of boot, and when the controller is
known -/

namespace Sys2Proof.Machine

/-! ### The backlight commands (R215, R216) -/

/-- Settles O17: the whole trace of either command is its one byte, and `latLeft` keeps the latches. -/
theorem backlightCommandsWriteOneByte : Obligations.BacklightCommandsWriteOneByte := fun _ hs =>
  ⟨⟨_, exec_idle .backlightOn hs, finish_exec_of_lastByte .backlightOn hs rfl⟩,
    ⟨_, exec_idle .backlightOff hs, finish_exec_of_lastByte .backlightOff hs rfl⟩⟩

/-! ### A busy engine and a reset (R225, R226, R250, R251) -/

/-- Settles O21: acceptance needs an idle engine, and the step of a busy one is `State.perform`. -/
theorem busyEngineAcceptsNothing : Obligations.BusyEngineAcceptsNothing := by
  intro s hs
  refine ⟨fun p => ?_, fun i => ?_, fun w rest hin => ?_⟩
  · exact Bool.eq_false_iff.2 fun hready => hs ((cmdReady_iff p s).1 hready).1
  · rw [exec_eq, accept_busy hs]
  · exact ⟨s.perform, step_busy hs (.inr ⟨w, rest, hin⟩), s.perform_inputs, s.perform_seq, s.perform_bl,
      s.perform_entry, s.perform_disp⟩

theorem cycle_rst {p : PortIn} (hr : p.rst = true) (s : State) : cycle p s = .next s.takeReset := by simp [cycle, hr]

/-- Settles O55. -/
theorem resetWinsInItsCycle : Obligations.ResetWinsInItsCycle := by
  intro p s hr
  refine ⟨?_, ?_, ?_, cycle_rst hr s, rfl, rfl, rfl, rfl, rfl, rfl, rfl⟩
  all_goals simp [portOut, hr]

theorem step_reset {s : State} {rest : List Input} (h : s.inputs = .reset :: rest) :
    step s = .next (State.takeReset { s with inputs := rest }) := by
  simp [step, h]

/-- Settles O48: what a reset adds is the `Tx` that lands, which is the one at the head of SEQ, or none. -/
theorem resetAbandonsTheOperation : Obligations.ResetAbandonsTheOperation := by
  intro s rest hin
  refine ⟨_, step_reset hin, rfl, ?_⟩
  rcases landed_cases { s with inputs := rest } with hl | ⟨l, v, ms, hs, hl⟩
  · exact .inl (by simp [State.history, hl])
  · exact .inr ⟨l, v, ms, hs, by simp [State.history, hl, Act.event], by simp [hl, Act.store]⟩

/-! ### Counts of events and sums of waits (R280) -/

theorem length_txEvents_add_length_waitEvents (es : List Event) :
    (txEvents es).length + (waitEvents es).length = es.length := by
  induction es with
  | nil => rfl
  | cons e es ih =>
    cases e <;> simp only [txEvents, waitEvents, List.length_cons] <;> omega

/-- A measure that is additive over traces, of equally measured pieces. -/
theorem measure_flatMap {α : Type} {measure : List Event → Nat} (hnil : measure [] = 0)
    (happend : ∀ xs ys, measure (xs ++ ys) = measure xs + measure ys) {f : α → List Event} {n : Nat}
    (hf : ∀ x, measure (f x) = n) (xs : List α) : measure (xs.flatMap f) = xs.length * n := by
  induction xs with
  | nil => simpa using hnil
  | cons x xs ih => rw [List.flatMap_cons, happend, hf, ih, List.length_cons, Nat.succ_mul, Nat.add_comm]

/-- The `Tx` events of each command (R280). -/
def txCount : Instr → Nat
  | .init => 24
  | .defineGlyph _ _ => 40
  | .backlightOn | .backlightOff => 1
  | .clear | .home => 4
  | .leftToRight | .rightToLeft | .autoscrollOn | .autoscrollOff => 4
  | .displayOn | .displayOff | .cursorOn | .cursorOff | .blinkOn | .blinkOff => 4
  | .scrollLeft | .scrollRight | .setCursor _ _ | .writeChar _ => 4

theorem length_txEvents_instrTrace (c : Cfg) (rs bl : Line) (b : Byte) (t : Units) :
    (txEvents (instrTrace c rs bl b t)).length = 4 := by
  rw [txEvents_instrTrace]
  rfl

theorem length_txEvents_halfTrace (c : Cfg) (bl : Line) (b : Byte) (t : Units) :
    (txEvents (halfTrace c bl b t)).length = 2 := by
  rw [txEvents_halfTrace]
  rfl

theorem length_txEvents_traceOf (c : Cfg) (i : Instr) (r : Regs) : (txEvents (traceOf c i r)).length = txCount i := by
  have hcommand (b : Byte) (t : Units) : (txEvents (commandTrace c r.bl b t)).length = 4 :=
    length_txEvents_instrTrace c 0 r.bl b t
  have hdata (b : Byte) : (txEvents (dataTrace c r.bl b)).length = 4 :=
    length_txEvents_instrTrace c 1 r.bl b c.tWrite
  cases i with
  | init =>
    simp only [traceOf, initTrace, txEvents_append, List.length_append, length_txEvents_halfTrace, hcommand, txCount]
  | defineGlyph a g =>
    have hglyph := measure_flatMap (measure := fun es => (txEvents es).length) rfl (by simp)
      (fun k => hdata ((g >>> (8 * k)).setWidth 8)) (List.range 8)
    simp only [List.length_range] at hglyph
    simp only [traceOf, glyphTrace, txEvents_append, List.length_append, hcommand, hglyph, txCount]
  | writeChar a => exact hdata a
  | backlightOn | backlightOff => rfl
  | _ => exact hcommand _ _

/-- The sum of the waits of each command (R280). -/
def waitTotal (c : Cfg) : Instr → Nat
  | .init =>
    12 * c.tEn.toNat + 4 * c.tGap.toNat + c.tInit1.toNat + c.tInit2.toNat + c.tInit3.toNat + 4 * c.tSettle.toNat +
      c.tLong.toNat
  | .clear | .home => 2 * c.tEn.toNat + c.tGap.toNat + c.tLong.toNat
  | .writeChar _ => 2 * c.tEn.toNat + c.tGap.toNat + c.tWrite.toNat
  | .defineGlyph _ _ => 20 * c.tEn.toNat + 10 * c.tGap.toNat + 2 * c.tSettle.toNat + 8 * c.tWrite.toNat
  | .backlightOn | .backlightOff => 0
  | .leftToRight | .rightToLeft | .autoscrollOn | .autoscrollOff => 2 * c.tEn.toNat + c.tGap.toNat + c.tSettle.toNat
  | .displayOn | .displayOff | .cursorOn | .cursorOff | .blinkOn | .blinkOff =>
    2 * c.tEn.toNat + c.tGap.toNat + c.tSettle.toNat
  | .scrollLeft | .scrollRight | .setCursor _ _ => 2 * c.tEn.toNat + c.tGap.toNat + c.tSettle.toNat

theorem waitSum_traceOf (c : Cfg) (i : Instr) (r : Regs) : waitSum (traceOf c i r) = waitTotal c i := by
  have hcommand (b : Byte) (t : Units) :
      waitSum (commandTrace c r.bl b t) = 2 * c.tEn.toNat + c.tGap.toNat + t.toNat := waitSum_instrTrace c 0 r.bl b t
  have hdata (b : Byte) : waitSum (dataTrace c r.bl b) = 2 * c.tEn.toNat + c.tGap.toNat + c.tWrite.toNat :=
    waitSum_instrTrace c 1 r.bl b c.tWrite
  cases i with
  | init =>
    simp only [traceOf, initTrace, waitSum_append, waitSum_halfTrace, hcommand, waitTotal]
    omega
  | defineGlyph a g =>
    have hglyph := measure_flatMap (measure := waitSum) rfl waitSum_append
      (fun k => hdata ((g >>> (8 * k)).setWidth 8)) (List.range 8)
    rw [List.length_range] at hglyph
    simp only [traceOf, glyphTrace, waitSum_append, hcommand, hglyph, waitTotal]
    omega
  | writeChar a => exact hdata a
  | backlightOn | backlightOff => rfl
  | _ => exact hcommand _ _

/-- Settles O37: what is pending is the command's trace; the waits are the micro-steps (R38) that are no `Tx`. -/
theorem transmissionCountsAndWaitSums : Obligations.TransmissionCountsAndWaitSums := by
  intro i s t hs ht
  have hsteps := fun hwaits => microStepCounts i s t hs hwaits ht
  rw [exec_idle i hs] at ht
  cases ht
  rw [← length_pending, ← length_txEvents_add_length_waitEvents, pending_load, length_txEvents_traceOf] at hsteps
  rw [pending_load, length_txEvents_traceOf, waitSum_traceOf]
  refine ⟨?_, fun hwaits hgap => ?_, ?_, fun hdefault => ?_⟩
  · cases i <;> rfl
  · have hsum := hsteps hwaits
    rw [if_pos hgap] at hsum
    cases i <;> exact Nat.add_left_cancel hsum
  · cases i <;> rfl
  · rw [hdefault]
    cases i <;> rfl

/-! ### The order of boot (R260 to R262) -/

/-- The time that an act takes. -/
def HostAct.duration : HostAct → Nat
  | .elapse n => n
  | _ => 0

/-- The time since the display was powered last. -/
def sincePower (acts : List HostAct) : Nat :=
  ((acts.reverse.takeWhile (· ≠ .powerUp)).map HostAct.duration).sum

theorem sincePower_concat (acts : List HostAct) (a : HostAct) :
    sincePower (acts ++ [a]) = if a = .powerUp then 0 else sincePower acts + a.duration := by
  simp only [sincePower, List.reverse_append, List.reverse_singleton, List.singleton_append, List.takeWhile_cons]
  split
  next h => simp_all [Nat.add_comm]
  next h => simp_all

/-- The engine has been reset (R260, step 2). -/
def WasReset (acts : List HostAct) : Prop := ∃ interrupts, HostAct.reset interrupts ∈ acts

/-- An `INIT` in time after a reset, which no power-up and no reset in mid-operation has undone since (R261, R262). -/
def Initialised (powerOn : Nat) (acts : List HostAct) : Prop :=
  ∃ before after, acts = before ++ .issue .init :: after ∧ HostAct.powerUp ∉ after ∧ HostAct.reset true ∉ after ∧
    WasReset before ∧ powerOn ≤ sincePower before

theorem WasReset.concat {acts : List HostAct} (h : WasReset acts) (a : HostAct) : WasReset (acts ++ [a]) :=
  h.imp fun _ hmem => List.mem_append_left _ hmem

theorem Initialised.concat {powerOn : Nat} {acts : List HostAct} (h : Initialised powerOn acts) {a : HostAct}
    (hpower : a ≠ .powerUp) (hreset : a ≠ .reset true) : Initialised powerOn (acts ++ [a]) := by
  obtain ⟨before, after, rfl, hp, hr, hbefore⟩ := h
  exact ⟨before, after ++ [a], by simp, by simp [hp, hpower.symm], by simp [hr, hreset.symm], hbefore⟩

/-- What the discipline remembers is what has happened. -/
structure BootState.Remembers (powerOn : Nat) (b : BootState) (acts : List HostAct) : Prop where
  wasReset : b.wasReset = true → WasReset acts
  waited   : b.waited = sincePower acts
  ready    : b.ready = true → Initialised powerOn acts

/-- A command that the discipline allows. -/
theorem bootStep_issue {powerOn : Nat} {b c : BootState} {i : Instr} (h : bootStep powerOn b (.issue i) = some c) :
    b.wasReset = true ∧
      ((i = .init ∧ powerOn ≤ b.waited ∧ c = { b with ready := true }) ∨
        (i ≠ .init ∧ (i.sendsInstruction = true → b.ready = true) ∧ c = b)) := by
  simp only [bootStep] at h
  split_ifs at h with hreset hi htime hsends hready
  · cases h
    exact ⟨by simpa using hreset, .inl ⟨hi, htime, rfl⟩⟩
  · cases h
    exact ⟨by simpa using hreset, .inr ⟨hi, fun _ => hready, rfl⟩⟩
  · cases h
    exact ⟨by simpa using hreset, .inr ⟨hi, fun hc => absurd hc hsends, rfl⟩⟩

theorem BootState.Remembers.step {powerOn : Nat} {b c : BootState} {acts : List HostAct} (hb : b.Remembers powerOn acts)
    {a : HostAct} (h : bootStep powerOn b a = some c) : c.Remembers powerOn (acts ++ [a]) := by
  obtain ⟨hreset, hwaited, hready⟩ := hb
  have hsince := sincePower_concat acts a
  cases a with
  | powerUp =>
    cases h
    exact ⟨fun hc => (hreset hc).concat _, by simp [hsince], by simp⟩
  | elapse n =>
    cases h
    exact ⟨fun hc => (hreset hc).concat _, by simp [hsince, hwaited, HostAct.duration],
      fun hc => (hready hc).concat (by simp) (by simp)⟩
  | reset interrupts =>
    cases h
    refine ⟨fun _ => ⟨interrupts, by simp⟩, by simp [hsince, hwaited, HostAct.duration], fun hc => ?_⟩
    obtain ⟨hb, hi⟩ : b.ready = true ∧ interrupts = false := by simpa using hc
    exact (hready hb).concat (by simp) (by simp [hi])
  | issue i =>
    have hsince : sincePower (acts ++ [.issue i]) = sincePower acts := by simp [hsince, HostAct.duration]
    obtain ⟨hwas, ⟨rfl, htime, rfl⟩ | ⟨-, -, rfl⟩⟩ := bootStep_issue h
    · exact ⟨fun hc => (hreset hc).concat _, hsince ▸ hwaited,
        fun _ => ⟨acts, [], rfl, by simp, by simp, hreset hwas, hwaited ▸ htime⟩⟩
    · exact ⟨fun hc => (hreset hc).concat _, hsince ▸ hwaited, fun hc => (hready hc).concat (by simp) (by simp)⟩

theorem bootOk_cons {powerOn : Nat} {b : BootState} {a : HostAct} {acts : List HostAct}
    (h : bootOk powerOn b (a :: acts) = true) : ∃ c, bootStep powerOn b a = some c ∧ bootOk powerOn c acts = true := by
  rw [bootOk] at h
  split at h
  · exact ⟨_, ‹_›, h⟩
  · cases h

/-- After the first acts of a disciplined history the discipline remembers them. -/
theorem BootState.Remembers.append {powerOn : Nat} {b : BootState} {seen acts rest : List HostAct}
    (hb : b.Remembers powerOn seen) (h : bootOk powerOn b (acts ++ rest) = true) :
    ∃ c : BootState, c.Remembers powerOn (seen ++ acts) ∧ bootOk powerOn c rest = true := by
  induction acts generalizing b seen with
  | nil => exact ⟨b, by rwa [List.append_nil], h⟩
  | cons a acts ih =>
    obtain ⟨c, hstep, hrest⟩ := bootOk_cons h
    rw [List.append_cons]
    exact ih (hb.step hstep) hrest

theorem BootState.remembers_start (powerOn : Nat) : BootState.start.Remembers powerOn [] :=
  ⟨by simp [BootState.start], rfl, by simp [BootState.start]⟩

/-- Settles O58: at the command the discipline remembers what came before it, and allows the command by that. -/
theorem instructionsComeAfterInit : Obligations.InstructionsComeAfterInit := by
  intro powerOn pre post i h
  obtain ⟨b, ⟨hreset, hwaited, hready⟩, hrest⟩ := (BootState.remembers_start powerOn).append h
  obtain ⟨c, hstep, -⟩ := bootOk_cons hrest
  obtain ⟨hwas, hallowed⟩ := bootStep_issue hstep
  refine ⟨hreset hwas, fun hi => ?_, fun hsends hi => ?_⟩
  · obtain ⟨-, htime, -⟩ := hallowed.resolve_right (fun hc => hc.1 hi)
    exact Nat.le_trans htime (Nat.le_of_eq hwaited)
  · obtain ⟨-, hb, -⟩ := hallowed.resolve_left (fun hc => hi hc.1)
    exact hready (hb hsends)

/-! ### What a step shows the watcher (R251, R272) -/

theorem sights_reset {s : State} {rest : List Input} (h : s.inputs = .reset :: rest) :
    s.sights = s.landed.map (fun a => Sight.event (a.event s.cfg.addr)) ++ [.reset (!s.idle)] := by
  simp [State.sights, h]

theorem sights_accepted {s : State} (hs : s.seq = []) {w : CmdWord} {rest : List Input} {i : Instr}
    (h : s.inputs = .command w :: rest) (hw : decode w = .ok i) : s.sights = [.accepted i] := by
  simp [State.sights, h, State.idle_iff.2 hs, hw]

theorem headSight_idle {s : State} (hs : s.seq = []) : s.headSight = [] := by simp [State.headSight, hs]

theorem landed_idle {s : State} (hs : s.seq = []) : s.landed = [] := by simp [State.landed, hs]

theorem sights_busy {s : State} (hs : s.seq ≠ []) (h : ∀ rest, s.inputs ≠ .reset :: rest) :
    s.sights = s.headSight := by
  unfold State.sights
  split
  · rfl
  · rfl
  · exact absurd ‹_› (h _)
  · rw [State.not_idle_iff.2 hs]
    rfl

/-! ### The stage of the watcher (R251, R272, U2) -/

theorem Observer.stage_accepted_init (o : Observer) : (o.accepted .init).stage = .starting := rfl

/-- A command that is no `INIT` starts nothing, and cuts short what had started. -/
theorem Observer.stage_accepted {i : Instr} (hi : i ≠ .init) (o : Observer) :
    (o.accepted i).stage = if o.stage = .starting then .unknown else o.stage := by
  rw [Observer.accepted, if_neg hi]
  split <;> rfl

/-- No acceptance makes the controller known. -/
theorem Observer.ready_of_accepted {i : Instr} {o : Observer} (h : (o.accepted i).stage = .ready) :
    o.stage = .ready := by
  by_cases hi : i = .init
  · subst hi
    cases h
  · rw [Observer.stage_accepted hi] at h
    split at h
    · cases h
    · exact h

theorem Observer.unknown_rise {o : Observer} (h : o.stage = .unknown) : o.rise.stage = .unknown := by
  unfold Observer.rise
  split
  · rfl
  · exact h

theorem Observer.unknown_fall {o : Observer} (h : o.stage = .unknown) (need : Needs) (p : Line × Nibble) :
    (o.fall need p).stage = .unknown := by
  simp [Observer.fall, h]

/-- No event takes the watcher out of the unknown stage (U2): that is for the acceptance of an `INIT`. -/
theorem Observer.unknown_event {o : Observer} (h : o.stage = .unknown) (need : Needs) (e : Event) :
    (o.see need (.event e)).stage = .unknown := by
  cases e with
  | wait n => exact (congrArg Observer.stage (Observer.complete_of_ne (by simp [h]))).trans h
  | tx a v =>
    simp only [Observer.see, Observer.byte]
    split
    · exact Observer.unknown_rise h
    · split
      · split
        · exact Observer.unknown_fall h need _
        · exact h
      · exact h

theorem Observer.unknown_watch_headSight {o : Observer} (h : o.stage = .unknown) (need : Needs) (s : State) :
    (o.watch need s.headSight).stage = .unknown := by
  cases hs : s.seq with
  | nil => rwa [headSight_idle hs]
  | cons m ms => simpa [State.headSight, hs] using Observer.unknown_event h need _

/-- A reset that interrupts an operation loses everything, whether or not a `TX` lands before it (R251, U10). -/
theorem Observer.stage_watch_reset_busy {s : State} {rest : List Input} (h : s.inputs = .reset :: rest)
    (hs : s.seq ≠ []) (need : Needs) (o : Observer) : (o.watch need s.sights).stage = .unknown := by
  rw [sights_reset h, Observer.watch_append, State.not_idle_iff.2 hs]
  rfl

/-- What a step from an idle engine shows is nothing, a reset that changes nothing in the controller (R250), or the
acceptance of the command on the port. -/
theorem Observer.watch_sights_idle {s : State} (hs : s.seq = []) (need : Needs) (o : Observer) :
    o.watch need s.sights = o ∨
      ∃ w rest i, s.inputs = .command w :: rest ∧ decode w = .ok i ∧ o.watch need s.sights = o.accepted i := by
  cases hin : s.inputs with
  | nil => exact .inl (by simp [State.sights, hin, headSight_idle hs])
  | cons x rest =>
    cases x with
    | reset =>
      rw [sights_reset hin, landed_idle hs, State.idle_iff.2 hs]
      exact .inl rfl
    | pass => exact .inl (by simp [State.sights, hin, headSight_idle hs])
    | command w =>
      cases hw : decode w with
      | ok i =>
        rw [sights_accepted hs hin hw]
        exact .inr ⟨w, rest, i, rfl, hw, rfl⟩
      | error e => exact .inl (by simp [State.sights, hin, State.idle_iff.2 hs, hw])

/-- What one step can do to the watcher: nothing is seen that changes it; the command on the port of an idle engine is
accepted; it ends in the unknown stage, as after a reset in mid-operation; or it is not in that stage and sees a
micro-step of the running operation. -/
theorem Observer.watch_sights_cases (need : Needs) (o : Observer) (s : State) :
    o.watch need s.sights = o ∨
    (∃ w rest i, s.seq = [] ∧ s.inputs = .command w :: rest ∧ decode w = .ok i ∧
      o.watch need s.sights = o.accepted i) ∨
    (o.watch need s.sights).stage = .unknown ∨
    (s.seq ≠ [] ∧ (∀ rest, s.inputs ≠ .reset :: rest) ∧ o.stage ≠ .unknown) := by
  by_cases hs : s.seq = []
  · rcases Observer.watch_sights_idle hs need o with h | ⟨w, rest, i, h⟩
    · exact .inl h
    · exact .inr (.inl ⟨w, rest, i, hs, h⟩)
  · by_cases hr : ∃ rest, s.inputs = .reset :: rest
    · obtain ⟨rest, hin⟩ := hr
      exact .inr (.inr (.inl (Observer.stage_watch_reset_busy hin hs need o)))
    · have hr := not_exists.1 hr
      by_cases ho : o.stage = .unknown
      · rw [sights_busy hs hr]
        exact .inr (.inr (.inl (Observer.unknown_watch_headSight ho need s)))
      · exact .inr (.inr (.inr ⟨hs, hr, ho⟩))

/-! ### Watching an `INIT` that has a byte still to send (R150, R272) -/

/-- The watcher does not count as ready whichever of the nibbles `ns` it goes on to receive: nothing has started, or the
entry-mode flags, which an `INIT` sends last, are not among what the nibbles so far and any first part of `ns` tell. -/
def Observer.Unready (o : Observer) (ns : List (Line × Nibble)) : Prop :=
  o.stage = .unknown ∨
    (o.stage = .starting ∧ ∀ ps, ps <+: ns → (ps.foldl Controller.nibble o.ctrl).entry = none)

theorem Observer.Unready.not_ready {o : Observer} {ns : List (Line × Nibble)} (h : o.Unready ns) :
    o.stage ≠ .ready := by
  rcases h with h | ⟨h, -⟩ <;> simp [h]

/-- The byte on the lines takes no part in it. -/
theorem Observer.Unready.setLine {o : Observer} {ns : List (Line × Nibble)} (h : o.Unready ns)
    (l : Option (BusAddr × Byte)) : ({ o with line := l } : Observer).Unready ns := h

theorem Observer.Unready.complete {o : Observer} {ns : List (Line × Nibble)} (h : o.Unready ns) :
    o.complete.Unready ns := by
  have hsame : o.complete = o := by
    rcases h with h | ⟨-, h⟩
    · exact Observer.complete_of_ne (by simp [h])
    · exact Observer.complete_of_entry (h [] List.nil_prefix)
  rwa [hsame]

theorem Observer.Unready.rise {o : Observer} {ns : List (Line × Nibble)} (h : o.Unready ns) : o.rise.Unready ns := by
  unfold Observer.rise
  split
  · exact .inl rfl
  · exact h

theorem Observer.Unready.fall {o : Observer} {p : Line × Nibble} {ns : List (Line × Nibble)} (h : o.Unready (p :: ns))
    (need : Needs) : (o.fall need p).Unready ns := by
  rcases h with h | ⟨h, hentry⟩
  · exact .inl (Observer.unknown_fall h need p)
  · simp only [Observer.fall, h]
    split
    · exact .inl rfl
    · exact Observer.Unready.complete (.inr ⟨h, fun ps hps => hentry (p :: ps) (List.cons_prefix_cons.2 ⟨rfl, hps⟩)⟩)

/-- An event hands the watcher the nibble that it latches, if any (R82). -/
theorem Observer.Unready.event {o : Observer} {e : Event} {es : List Event}
    (h : o.Unready (latchedAfter o.line (txEvents (e :: es)))) (need : Needs) :
    (o.see need (.event e)).Unready (latchedAfter (o.see need (.event e)).line (txEvents es)) := by
  cases e with
  | wait n =>
    have hline : (o.see need (.event (.wait n))).line = o.line := by
      simp only [Observer.see, Observer.elapse]
      rcases Observer.complete_cases { o with waited := o.waited + n.toNat, awaiting := o.awaiting - n.toNat } with
        hc | ⟨-, hc⟩ <;> rw [hc]
    rw [hline]
    exact Observer.Unready.complete h
  | tx a v =>
    simp only [txEvents, latchedAfter] at h
    simp only [Observer.see, Observer.byte]
    refine Observer.Unready.setLine ?_ _
    split
    next hv =>
      refine Observer.Unready.rise ?_
      cases hline : o.line <;> simpa [hline, hv] using h
    next hv =>
      have hlow : enBit v = 0 := by
        generalize enBit v = x at hv ⊢
        decide +revert
      cases hline : o.line with
      | none => simpa [hline] using h
      | some x =>
        obtain ⟨b, u⟩ := x
        simp only [hline, hlow, and_true] at h ⊢
        split
        next hp =>
          rw [if_pos hp] at h
          exact h.fall need
        next hp =>
          rw [if_neg hp] at h
          exact h

theorem Observer.Unready.watch {es : List Event} {o : Observer} (h : o.Unready (latchedAfter o.line (txEvents es)))
    (need : Needs) : (o.watch need (es.map Sight.event)).stage ≠ .ready := by
  induction es generalizing o with
  | nil => exact h.not_ready
  | cons e es ih => exact ih (h.event need)

/-! ### The nibbles of a trace that is cut short (R82) -/

theorem latchedAfter_append (prev : Option (BusAddr × Byte)) (xs ys : List (BusAddr × Byte)) :
    latchedAfter prev (xs ++ ys) = latchedAfter prev xs ++ latchedAfter (xs.getLast?.or prev) ys := by
  induction xs generalizing prev with
  | nil => rfl
  | cons x xs ih =>
    obtain ⟨a, w⟩ := x
    have hlast : ((a, w) :: xs).getLast?.or prev = xs.getLast?.or (some (a, w)) := by
      cases h : xs.getLast? <;> simp [List.getLast?_cons, h]
    simp only [List.cons_append, latchedAfter, ih, hlast, List.append_assoc]

/-- What comes before a byte that raises enable latches nothing with it. -/
theorem latchedAfter_raised {w : Byte} (hw : enBit w = 1) (prev : Option (BusAddr × Byte)) (a : BusAddr)
    (xs : List (BusAddr × Byte)) : latchedAfter prev ((a, w) :: xs) = latchedAfter none ((a, w) :: xs) := by
  cases prev <;> simp [latchedAfter, hw]

/-- The bytes of a trace that ends in a pulse, cut short, latch no more than the nibbles before its last. -/
theorem latchedAfter_prefix_dropLast {prev : Option (BusAddr × Byte)} {zs xs ys : List (BusAddr × Byte)}
    {a : BusAddr} {x y : Byte} (hx : enBit x = 1) (hy : enBit y = 0) (h : xs ++ ys = zs ++ [(a, x), (a, y)])
    (hys : ys ≠ []) : latchedAfter prev xs <+: (latchedAfter prev (xs ++ ys)).dropLast := by
  have hsplit : xs ++ ys = (zs ++ [(a, x)]) ++ [(a, y)] := by simp [h]
  obtain ⟨ts, z, rfl⟩ := List.eq_nil_or_concat ys |>.resolve_left hys
  obtain ⟨hbody, -⟩ : xs ++ ts = zs ++ [(a, x)] ∧ z = (a, y) := by
    rw [List.concat_eq_append, ← List.append_assoc] at hsplit
    simpa using List.append_inj' hsplit rfl
  rw [hsplit, latchedAfter_append, ← hbody, latchedAfter_append, hbody]
  simp [latchedAfter, hx, hy]

/-! ### The nibbles of an `INIT` before its last (R150, R151) -/

/-- The nibbles that `INIT` latches, but for the last: with them no entry-mode instruction is complete. -/
theorem entry_of_prefix_init (c : Cfg) (bl : Line) (e : BitVec 2) (d : BitVec 3) {ps : List (Line × Nibble)}
    (h : ps <+: (latched (initTrace c bl e d)).dropLast) :
    (ps.foldl Controller.nibble Controller.unknown).entry = none := by
  have hall : ∀ (e : BitVec 2) (d : BitVec 3),
      ∀ ps ∈ (([(0, 3), (0, 3), (0, 3), (0, 2)] ++
          [0x28, 0x08 ||| d.setWidth 8, 0x01, 0x04 ||| e.setWidth 8].flatMap
            (fun b => [((0 : Line), hiNibble b), (0, loNibble b)])).dropLast).inits,
        (ps.foldl Controller.nibble Controller.unknown).entry = none := by decide
  rw [latched_initTrace] at h
  exact hall e d ps ((List.mem_inits _ _).2 h)

/-- The first byte of `INIT` raises enable. -/
theorem txEvents_initTrace_begin (c : Cfg) (bl : Line) (e : BitVec 2) (d : BitVec 3) :
    ∃ x xs, enBit x = 1 ∧ txEvents (initTrace c bl e d) = (c.addr, x) :: xs :=
  ⟨_, _, enBit_raised 0x30 0 bl, rfl⟩

/-- What ends in a full transmission ends in the pulse of its low nibble. -/
theorem txEvents_append_instrTrace_end (es : List Event) (c : Cfg) (rs bl : Line) (b : Byte) (t : Units) :
    ∃ xs x y, enBit x = 1 ∧ enBit y = 0 ∧
      txEvents (es ++ instrTrace c rs bl b t) = xs ++ [(c.addr, x), (c.addr, y)] := by
  refine ⟨txEvents es ++ (txEvents (instrTrace c rs bl b t)).take 2, _, _, enBit_raised (b <<< 4) rs bl,
    enBit_lowered (b <<< 4) rs bl, ?_⟩
  rw [txEvents_append, txEvents_instrTrace, List.append_assoc]
  rfl

/-- An accepted `INIT` that has not sent its last byte has not made the controller known. -/
theorem Observer.stage_watch_init {sent rest : List Event} {c : Cfg} {bl : Line} {e : BitVec 2} {d : BitVec 3}
    (h : initTrace c bl e d = sent ++ rest) (hrest : txEvents rest ≠ []) (need : Needs) (o : Observer) :
    ((o.accepted .init).watch need (sent.map Sight.event)).stage ≠ .ready := by
  refine Observer.Unready.watch (.inr ⟨o.stage_accepted_init, fun ps hps => entry_of_prefix_init c bl e d ?_⟩) need
  obtain ⟨z, zs, hz, hbegin⟩ := txEvents_initTrace_begin c bl e d
  obtain ⟨xs, x, y, hx, hy, hend⟩ :
      ∃ xs x y, enBit x = 1 ∧ enBit y = 0 ∧ txEvents (initTrace c bl e d) = xs ++ [(c.addr, x), (c.addr, y)] :=
    txEvents_append_instrTrace_end _ c 0 bl _ c.tSettle
  have hcut := latchedAfter_prefix_dropLast (prev := o.line) hx hy (by rw [← hend, h, txEvents_append]) hrest
  rw [← txEvents_append, ← h, hbegin, latchedAfter_raised hz, ← hbegin] at hcut
  exact hps.trans hcut

/-- Settles O59: the four things that one step can do to the watcher, read for each stage; an `INIT` is over no sooner
than the low nibble of its entry-mode instruction has been latched, which its last byte does. -/
theorem controllerIsUnknownUntilInitCompletes : Obligations.ControllerIsUnknownUntilInitCompletes := by
  refine ⟨fun need o s t _ => ?_, fun need o s t hs ht sent rest hsplit hrest => ?_⟩
  · have hcases := Observer.watch_sights_cases need o s
    refine ⟨fun ho hbegins => ?_, fun ⟨hs, w, rest, hin, hw⟩ => ?_,
      fun hs ⟨rest, hin⟩ => Observer.stage_watch_reset_busy hin hs need o, fun hk => ?_, Observer.known_unknown⟩
    · rcases hcases with h | ⟨w, rest, i, hs, hin, hw, h⟩ | h | ⟨-, -, hne⟩
      · rwa [h]
      · have hi : i ≠ .init := fun hi => hbegins ⟨hs, w, rest, hin, hi ▸ hw⟩
        rw [h, Observer.stage_accepted hi, ho]
        rfl
      · exact h
      · exact absurd ho hne
    · rw [sights_accepted hs hin hw]
      rfl
    · rcases hcases with h | ⟨w, rest, i, -, -, -, h⟩ | h | ⟨hs, hr, hne⟩
      · exact .inl (h ▸ hk)
      · exact .inl (Observer.ready_of_accepted (h ▸ hk))
      · exact absurd (h.symm.trans hk) (by decide)
      · cases ho : o.stage with
        | unknown => exact absurd ho hne
        | starting => exact .inr ⟨rfl, hs, hr⟩
        | ready => exact .inl rfl
  · rw [exec_idle .init hs] at ht
    rw [← Host.Outcome.next.inj ht, pending_load, traceOf_init] at hsplit
    exact Observer.known_unknown (Observer.stage_watch_init hsplit hrest need o)

end Sys2Proof.Machine
